-- ==== Sys2Proof/Word.lean ====
section
/-! DEFINITION. The word, byte and register-index types of the CORE (00_scope.md R8, R10, R11). -/

namespace Sys2Proof

/-- A register value, segment word, identifier, offset or program counter: an unsigned value in [0, 2^32) (R11). -/
abbrev Word := BitVec 32

/-- A value of the byte channels and of the image file (R50, R51). -/
abbrev Byte := BitVec 8

/-- A register selector, 3 bits, all 8 values valid (R8, R94). -/
abbrev RegIdx := Fin 8

end Sys2Proof
end

