-- ==== Sys2Proof/Syntax.lean ====
section
/-! DEFINITION. The instructions of the CORE: one constructor per row of the opcode map (30_encoding.md R97), with the
operands its rule of 41_alu.md to 45_io.md reads or writes, in the field order a, b, c (R102). -/

namespace Sys2Proof

/-- The 14 operations. A field an opcode neither reads nor writes is no argument: it is ignored (R99). -/
inductive Instr where
  /-- Opcode 0, Conditional Move (R140). -/
  | cmov (a b c : RegIdx)
  /-- Opcode 1, Segmented Load (R160). -/
  | load (a b c : RegIdx)
  /-- Opcode 2, Segmented Store (R161). -/
  | store (a b c : RegIdx)
  /-- Opcode 3, Add (R141). -/
  | add (a b c : RegIdx)
  /-- Opcode 4, Multiply (R142). -/
  | mul (a b c : RegIdx)
  /-- Opcode 5, Divide (R143). -/
  | div (a b c : RegIdx)
  /-- Opcode 6, Bitwise NAND (R144). -/
  | nand (a b c : RegIdx)
  /-- Opcode 7, Halt (R170). -/
  | halt
  /-- Opcode 8, Map Segment (R180). -/
  | map (b c : RegIdx)
  /-- Opcode 9, Unmap Segment (R181). -/
  | unmap (c : RegIdx)
  /-- Opcode 10, Output (R190). -/
  | out (c : RegIdx)
  /-- Opcode 11, Input (R191). -/
  | inp (c : RegIdx)
  /-- Opcode 12, Load Program (R171). -/
  | loadp (b c : RegIdx)
  /-- Opcode 13, Load Immediate (R145). The immediate is a number; `Instr.wellFormed` bounds it to 25 bits (R95). -/
  | li (a : RegIdx) (imm : Nat)
  deriving DecidableEq, Repr

/-- The opcode of an instruction (R97). -/
def Instr.opcode : Instr → Nat
  | .cmov _ _ _ => 0
  | .load _ _ _ => 1
  | .store _ _ _ => 2
  | .add _ _ _ => 3
  | .mul _ _ _ => 4
  | .div _ _ _ => 5
  | .nand _ _ _ => 6
  | .halt => 7
  | .map _ _ => 8
  | .unmap _ => 9
  | .out _ => 10
  | .inp _ => 11
  | .loadp _ _ => 12
  | .li _ _ => 13

/-- The units of the CORE (00_scope.md R2; `ioPort` is the path to the host's byte channels). -/
inductive CoreUnit where
  | fetchUnit
  | alu
  | loadStoreUnit
  | segmentManager
  | ioPort
  deriving DecidableEq, Repr

/-- The unit that executes an instruction (R2, decision D1). The split changes no result. -/
def Instr.coreUnit : Instr → CoreUnit
  | .cmov _ _ _ => .alu
  | .load _ _ _ => .loadStoreUnit
  | .store _ _ _ => .loadStoreUnit
  | .add _ _ _ => .alu
  | .mul _ _ _ => .alu
  | .div _ _ _ => .alu
  | .nand _ _ _ => .alu
  | .halt => .fetchUnit
  | .map _ _ => .segmentManager
  | .unmap _ => .segmentManager
  | .out _ => .ioPort
  | .inp _ => .ioPort
  | .loadp _ _ => .loadStoreUnit
  | .li _ _ => .alu

/-- The pseudo-instruction NOP (R103). -/
def Instr.nop : Instr := .cmov 0 0 0

/-- The pseudo-instruction NOT (R103). -/
def Instr.not (a b : RegIdx) : Instr := .nand a b b

end Sys2Proof
end

