-- ==== Sys2Proof/WellFormed.lean ====
section
/-! DEFINITION. Which instruction terms one instruction word can hold. Register selectors are valid by their type (30_encoding.md R94),
so the one check is the immediate of Load Immediate. -/

namespace Sys2Proof

/-- An instruction fits its word: "A value of 0x2000000 or more cannot be loaded by one instruction" (R95). -/
def Instr.wellFormed : Instr → Bool
  | .cmov _ _ _ => true
  | .load _ _ _ => true
  | .store _ _ _ => true
  | .add _ _ _ => true
  | .mul _ _ _ => true
  | .div _ _ _ => true
  | .nand _ _ _ => true
  | .halt => true
  | .map _ _ => true
  | .unmap _ => true
  | .out _ => true
  | .inp _ => true
  | .loadp _ _ => true
  | .li _ imm => decide (imm < 0x2000000)

end Sys2Proof
end

