-- ==== Sys2Proof/Decode.lean ====
section
/-! DEFINITION. The instruction decoder (30_encoding.md R90 to R100, 40_cycle.md R122), the encoder written from the same
field tables, the byte order of the image file (20_memory.md R50), and the assembler spelling (R102). -/

namespace Sys2Proof

/-- Field extraction (R96): the `width`-bit unsigned field whose lowest bit is bit `lsb`; a rejection for a field that
passes bit 64. -/
def extractUnsigned (w width lsb : Nat) : Option Nat :=
  if width ≤ 64 ∧ width + lsb ≤ 64 then some (w / 2 ^ lsb % 2 ^ width) else none

/-- A field of an instruction word. The decoder's fixed arguments are never rejected (R96), so the default is never taken. -/
def field (w : Word) (width lsb : Nat) : Nat := (extractUnsigned w.toNat width lsb).getD 0

/-- A 3-bit register selector (R94). -/
def regField (w : Word) (lsb : Nat) : RegIdx := Fin.ofNat 8 (field w 3 lsb)

/-- The selectors of format R (R91): a = bits 8:6, b = bits 5:3, c = bits 2:0. -/
def fieldA (w : Word) : RegIdx := regField w 6
def fieldB (w : Word) : RegIdx := regField w 3
def fieldC (w : Word) : RegIdx := regField w 0

/-- Why bits are no instruction. -/
inductive DecodeError where
  /-- The word's opcode is 14 or 15 (R98). -/
  | invalidOpcode (op : Nat)
  /-- Fewer than 4 bytes are left: no whole word (only from a byte list; the CORE itself always holds words, R50). -/
  | truncatedWord
  deriving DecidableEq, Repr

/-- The decoder, total on words (R93, R97, R100, R122). -/
def decode (w : Word) : Except DecodeError Instr :=
  match field w 4 28 with
  | 0 => .ok (.cmov (fieldA w) (fieldB w) (fieldC w))
  | 1 => .ok (.load (fieldA w) (fieldB w) (fieldC w))
  | 2 => .ok (.store (fieldA w) (fieldB w) (fieldC w))
  | 3 => .ok (.add (fieldA w) (fieldB w) (fieldC w))
  | 4 => .ok (.mul (fieldA w) (fieldB w) (fieldC w))
  | 5 => .ok (.div (fieldA w) (fieldB w) (fieldC w))
  | 6 => .ok (.nand (fieldA w) (fieldB w) (fieldC w))
  | 7 => .ok .halt
  | 8 => .ok (.map (fieldB w) (fieldC w))
  | 9 => .ok (.unmap (fieldC w))
  | 10 => .ok (.out (fieldC w))
  | 11 => .ok (.inp (fieldC w))
  | 12 => .ok (.loadp (fieldB w) (fieldC w))
  | 13 => .ok (.li (regField w 25) (field w 25 0))
  | op => .error (.invalidOpcode op)

/-- Big-endian word of four bytes (R50): `b0 * 2^24 + b1 * 2^16 + b2 * 2^8 + b3`. -/
def wordOfBytes (b0 b1 b2 b3 : Byte) : Word :=
  BitVec.ofNat 32 (b0.toNat * 2 ^ 24 + b1.toNat * 2 ^ 16 + b2.toNat * 2 ^ 8 + b3.toNat)

/-- The four bytes of a word in file order (R50). -/
def bytesOfWord (w : Word) : List Byte :=
  [BitVec.ofNat 8 (w.toNat / 2 ^ 24), BitVec.ofNat 8 (w.toNat / 2 ^ 16),
   BitVec.ofNat 8 (w.toNat / 2 ^ 8), BitVec.ofNat 8 w.toNat]

/-- The instruction at the front of a byte list, with the bytes after it (R50, R90). -/
def decodeBytes : List Byte → Except DecodeError (Instr × List Byte)
  | b0 :: b1 :: b2 :: b3 :: rest => (decode (wordOfBytes b0 b1 b2 b3)).map fun i => (i, rest)
  | _ => .error .truncatedWord

/-- The words of an image file (R50); the last `length mod 4` bytes form no word. -/
def imageWords : List Byte → List Word
  | b0 :: b1 :: b2 :: b3 :: rest => wordOfBytes b0 b1 b2 b3 :: imageWords rest
  | _ => []

/-- The bytes of an image file that form no word (R243). -/
def imageRemainder : List Byte → List Byte
  | _ :: _ :: _ :: _ :: rest => imageRemainder rest
  | bs => bs

/-- A format R word (R91) with its unused bits 0, as every word the spec assembles. -/
def packR (op : Nat) (a b c : RegIdx) : Word :=
  BitVec.ofNat 32 (op * 2 ^ 28 + a.val * 2 ^ 6 + b.val * 2 ^ 3 + c.val)

/-- A format I word (R92). -/
def packI (a : RegIdx) (imm : Nat) : Word :=
  BitVec.ofNat 32 (13 * 2 ^ 28 + a.val * 2 ^ 25 + imm)

/-- The encoder; "A field that is not written is assembled as 0" (R102). -/
def encode : Instr → Word
  | .cmov a b c => packR 0 a b c
  | .load a b c => packR 1 a b c
  | .store a b c => packR 2 a b c
  | .add a b c => packR 3 a b c
  | .mul a b c => packR 4 a b c
  | .div a b c => packR 5 a b c
  | .nand a b c => packR 6 a b c
  | .halt => packR 7 0 0 0
  | .map b c => packR 8 0 b c
  | .unmap c => packR 9 0 0 c
  | .out c => packR 10 0 0 c
  | .inp c => packR 11 0 0 c
  | .loadp b c => packR 12 0 b c
  | .li a imm => packI a imm

/-- How many low bits of an instruction's word, beside the opcode, decide what it decodes to (R91, R92, R99). -/
def decidingLowBits : Instr → Nat
  | .cmov _ _ _ => 9
  | .load _ _ _ => 9
  | .store _ _ _ => 9
  | .add _ _ _ => 9
  | .mul _ _ _ => 9
  | .div _ _ _ => 9
  | .nand _ _ _ => 9
  | .halt => 0
  | .map _ _ => 6
  | .unmap _ => 3
  | .out _ => 3
  | .inp _ => 3
  | .loadp _ _ => 6
  | .li _ _ => 28

/-- The word of a row of the opcode table, from its `nbits` low bits. -/
def tableWord (nbits w : Nat) : Word := BitVec.ofNat 32 (w % 2 ^ nbits)

/-- What the decoder reads from the bytes of a table word, laid out big-endian as the image file holds it (R50). -/
def decodeTableWord (nbits w : Nat) : Option Instr :=
  match decodeBytes (bytesOfWord (tableWord nbits w)) with
  | .ok (i, _) => some i
  | .error _ => none

/-- The assembler spelling of a register (R102). -/
def regName (r : RegIdx) : String := "r" ++ toString r.val

/-- The assembler spelling of an instruction (R102), the immediate in decimal. -/
def Instr.assembly : Instr → String
  | .cmov a b c => "CMOV " ++ regName a ++ ", " ++ regName b ++ ", " ++ regName c
  | .load a b c => "LOAD " ++ regName a ++ ", " ++ regName b ++ ", " ++ regName c
  | .store a b c => "STORE " ++ regName a ++ ", " ++ regName b ++ ", " ++ regName c
  | .add a b c => "ADD " ++ regName a ++ ", " ++ regName b ++ ", " ++ regName c
  | .mul a b c => "MUL " ++ regName a ++ ", " ++ regName b ++ ", " ++ regName c
  | .div a b c => "DIV " ++ regName a ++ ", " ++ regName b ++ ", " ++ regName c
  | .nand a b c => "NAND " ++ regName a ++ ", " ++ regName b ++ ", " ++ regName c
  | .halt => "HALT"
  | .map b c => "MAP " ++ regName b ++ ", " ++ regName c
  | .unmap c => "UNMAP " ++ regName c
  | .out c => "OUT " ++ regName c
  | .inp c => "IN " ++ regName c
  | .loadp b c => "LOADP " ++ regName b ++ ", " ++ regName c
  | .li a imm => "LI " ++ regName a ++ ", " ++ toString imm

end Sys2Proof
end

