-- ==== Sys2Proof/Config.lean ====
section
/-! DEFINITION. The parameters of a launch that the spec leaves open (00_scope.md R9). The other two open parameters,
INPUT and CAN_ALLOCATE, belong to the host during a run and stand in State as plain data. -/

namespace Sys2Proof

/-- LOADER_REMAINDER: what the loader does with an image file whose length is no multiple of 4
(70_reset_and_hazards.md R243, decision D13). -/
inductive LoaderRemainder where
  | truncate
  | reject
  deriving DecidableEq, Repr

/-- The launch parameters. MAX_IMAGE_WORDS is a 32-bit value, which is the bound `<= 2^32 - 1` of R9 and R243. -/
structure LaunchConfig where
  maxImageWords : Word
  remainder : LoaderRemainder
  deriving DecidableEq, Repr

/-- Identifiers lie below this bound; `next_unused_id` ranges over 1 to it (10_state.md R32, decision D10). -/
abbrev Config.idLimit : Nat := 2 ^ 32

end Sys2Proof
end

