-- ==== Sys2Proof/Machine/State.lean ====
section
/-! DEFINITION. The state of the CORE as plain data (10_state.md R20), the fault reasons, and the state at reset (R44). -/

namespace Sys2Proof.Machine

/-- The nine reasons of 60_exceptions.md R201. A fault is a next state of the model: the run state becomes `faulted r`
(R125, R200), so no step answers `Host.Outcome.fault`. Each is safe: the spec itself ends the run there. -/
inductive Fault where
  /-- Code 1, raised by the fetch of every cycle when `pc >= len(A0)` (R121). Safe. -/
  | pcOutOfRange
  /-- Code 2, raised by the decode of every cycle when the opcode is 14 or 15 (R122). Safe. -/
  | invalidOpcode
  /-- Code 3, raised by LOAD and STORE on segment 0 at an offset `>= len(A0)` (R160, R161). Safe. -/
  | seg0OutOfRange
  /-- Code 4, raised by UNMAP of id 0 (R181). Safe. -/
  | segIdZero
  /-- Code 5, raised by LOAD, STORE, LOADP and UNMAP on an id not mapped. Safe. -/
  | segUnmapped
  /-- Code 6, raised by LOAD and STORE at an offset `>=` the segment's length. Safe. -/
  | segOffsetOutOfRange
  /-- Code 7, raised by DIV with a zero divisor (R143). Safe. -/
  | divideByZero
  /-- Code 8, raised by OUT of a value above 255 (R190). Safe. -/
  | outputOutOfRange
  /-- Code 9, raised by MAP when CAN_ALLOCATE is false or no id is left (R56). Safe. -/
  | resourceExhausted
  deriving DecidableEq, Repr

/-- Refusals. Every instruction has a meaning, so none is raised. -/
inductive Refusal where
  /-- An instruction without a meaning, by its mnemonic; raised by no arm of `exec`. Safe. -/
  | notModelled (mnemonic : String)
  deriving DecidableEq, Repr

/-- The run state (R28): the halted flag, and the faulted value the spec adds for the source's abort (decision D6). -/
inductive RunState where
  | running
  | halted
  | faulted (r : Fault)
  deriving DecidableEq, Repr

/-- A word segment (20_memory.md R59): its length, and its non-zero words as (offset, word) pairs. The canonical form is
offsets strictly rising, below the length, no word 0; an unlisted offset below the length reads 0 (R56). -/
structure Segment where
  len : Word
  cells : List (Nat × Word)
  deriving DecidableEq, Repr

/-- The segment manager (10_state.md R32, in the form R34 allows): the high-water mark, the stack of reusable ids with the
most recently freed first, and the live segments by id, ids strictly rising. -/
structure SegMgr where
  nextUnusedId : Nat
  freeIds : List Word
  segments : List (Nat × Segment)
  deriving DecidableEq, Repr

/-- One answer of the host to an Input (60_exceptions.md R220, 45_io.md R191). -/
inductive InResponse where
  | byte (b : Byte)
  | eof
  deriving DecidableEq, Repr

/-- The machine: the tuple of R20, the host's channels that "the model keeps" (R220), and the open parameter CAN_ALLOCATE. -/
structure State where
  /-- x[0..7] (R21). -/
  regs : Vector Word 8
  /-- The program counter, a word offset in A0 (R25). -/
  pc : Word
  /-- The run state (R28). -/
  run : RunState
  /-- The active program segment, segment 0 (R31). -/
  a0 : Segment
  /-- The segment manager (R32). -/
  mgr : SegMgr
  /-- The bytes emitted so far, oldest first (R220). -/
  output : List Byte
  /-- The parameter INPUT: the host's responses not yet consumed, next first (R220, decision D11). -/
  input : List InResponse
  /-- The model's own field, for the parameter CAN_ALLOCATE (R74, decision D9): the requests it is false for. -/
  allocDenied : List (SegMgr × Word)
  deriving DecidableEq, Repr

/-- The empty segment. -/
def Segment.empty : Segment := { len := 0, cells := [] }

/-- `new()` (20_memory.md R55): "constructs empty manager, next_unused_id = 1". -/
def SegMgr.new : SegMgr := { nextUnusedId := 1, freeIds := [], segments := [] }

/-- The state after reset (R44), before the host's image is put in: `Sys2Proof.Machine.State.launchWords` adds it. -/
def State.reset : State :=
  { regs := Vector.replicate 8 0
    pc := 0
    run := .running
    a0 := Segment.empty
    mgr := SegMgr.new
    output := []
    input := []
    allocDenied := [] }

end Sys2Proof.Machine
end

