-- ==== Sys2Proof/Machine/Ops.lean ====
section
/-! DEFINITION. The named operations every meaning is made of: registers, sparse maps, segments, the segment manager
(20_memory.md R55 to R63), segment access (R65), fetch (40_cycle.md R121), and taking a fault (R125, R200). -/

namespace Sys2Proof.Machine

/-! ## Registers (10_state.md R21, R38): no register is hardwired, none has an alias. -/

/-- `x[i]`. -/
def State.x (s : State) (i : RegIdx) : Word := s.regs[i]

/-- `x[i] <- v`. -/
def State.writeReg (s : State) (i : RegIdx) (v : Word) : State := { s with regs := s.regs.set i v }

/-! ## Sparse maps: lists of (key, value), keys strictly rising -/

/-- The keys of a sparse map are strictly rising. -/
abbrev Assoc.Rising {α : Type} (l : List (Nat × α)) : Prop := (l.map Prod.fst).Pairwise (· < ·)

/-- The value at a key. -/
def Assoc.lookup {α : Type} (k : Nat) : List (Nat × α) → Option α
  | [] => none
  | (k', v) :: rest => if k = k' then some v else Assoc.lookup k rest

/-- Put a value at a key, keeping the keys rising. -/
def Assoc.insert {α : Type} (k : Nat) (v : α) : List (Nat × α) → List (Nat × α)
  | [] => [(k, v)]
  | (k', v') :: rest =>
    if k < k' then (k, v) :: (k', v') :: rest
    else if k = k' then (k, v) :: rest
    else (k', v') :: Assoc.insert k v rest

/-- Remove a key. -/
def Assoc.erase {α : Type} (k : Nat) (l : List (Nat × α)) : List (Nat × α) := l.filter fun e => e.1 != k

/-! ## Segments (20_memory.md R51, R59): word-addressed, of fixed length -/

/-- The canonical form of a segment. -/
abbrev Segment.wf (g : Segment) : Prop :=
  Assoc.Rising g.cells ∧ ∀ e ∈ g.cells, e.1 < g.len.toNat ∧ e.2 ≠ 0#32

/-- What an unlisted word of a segment reads as: "each initialized to 0" (R56). -/
def Segment.unlisted : Word := 0#32

/-- The word at an offset; none at an offset not less than the length. -/
def Segment.read (g : Segment) (o : Word) : Option Word :=
  if o < g.len then some ((Assoc.lookup o.toNat g.cells).getD Segment.unlisted) else none

/-- The cells after a write: the value an unlisted word reads as is not listed. -/
def Segment.putCell (cells : List (Nat × Word)) (o : Nat) (v : Word) : List (Nat × Word) :=
  if v = Segment.unlisted then Assoc.erase o cells else Assoc.insert o v cells

/-- The segment after a write, of the same length; none at an offset not less than the length. -/
def Segment.write (g : Segment) (o v : Word) : Option Segment :=
  if o < g.len then some { g with cells := Segment.putCell g.cells o.toNat v } else none

/-- A fresh segment of `size` zero words (R56). -/
def Segment.zeros (size : Word) : Segment := { len := size, cells := [] }

/-- The listed cells of a word list whose first word has offset `k`. -/
def Segment.cellsFrom (k : Nat) : List Word → List (Nat × Word)
  | [] => []
  | w :: rest =>
    if w = Segment.unlisted then Segment.cellsFrom (k + 1) rest
    else (k, w) :: Segment.cellsFrom (k + 1) rest

/-- The segment that holds the words of a list, in order; the list has at most 2^32 - 1 words. -/
def Segment.ofWords (ws : List Word) : Segment :=
  { len := BitVec.ofNat 32 ws.length, cells := Segment.cellsFrom 0 ws }

/-! ## The segment manager. The checks stand in the order of the spec's pseudocode (R126). -/

/-- The segment an id designates; none when the id is not mapped. -/
def SegMgr.segment (m : SegMgr) (id : Word) : Option Segment := Assoc.lookup id.toNat m.segments

/-- `is_mapped(id)`, "`segments` has an entry for id" (10_state.md R34). -/
def SegMgr.isMapped (m : SegMgr) (id : Word) : Bool := (m.segment id).isSome

/-- `mapped_bitmap` (R32) as a view: "set iff the id currently designates a live segment". -/
def SegMgr.mappedBitmap (m : SegMgr) (id : Nat) : Bool := (Assoc.lookup id m.segments).isSome

/-- Put a segment at an id. -/
def SegMgr.setSegment (m : SegMgr) (id : Word) (g : Segment) : SegMgr :=
  { m with segments := Assoc.insert id.toNat g m.segments }

/-- `map(size)` (R56, R57): the new id and the manager after it. `allowed` is the value of CAN_ALLOCATE. -/
def SegMgr.map (m : SegMgr) (allowed : Bool) (size : Word) : Except Fault (Word × SegMgr) :=
  if allowed then
    match m.freeIds with
    | id :: rest => .ok (id, ({ m with freeIds := rest } : SegMgr).setSegment id (Segment.zeros size))
    | [] =>
      if m.nextUnusedId < Config.idLimit then
        .ok (BitVec.ofNat 32 m.nextUnusedId,
          ({ m with nextUnusedId := m.nextUnusedId + 1 } : SegMgr).setSegment (BitVec.ofNat 32 m.nextUnusedId)
            (Segment.zeros size))
      else .error .resourceExhausted
  else .error .resourceExhausted

/-- `unmap(id)` (R58). -/
def SegMgr.unmap (m : SegMgr) (id : Word) : Except Fault SegMgr :=
  if id = 0#32 then .error .segIdZero
  else
    match m.segment id with
    | none => .error .segUnmapped
    | some _ => .ok { m with segments := Assoc.erase id.toNat m.segments, freeIds := id :: m.freeIds }

/-- `get(id, offset)` (R60). -/
def SegMgr.get (m : SegMgr) (id o : Word) : Except Fault Word :=
  if id = 0#32 then .error .segIdZero
  else
    match m.segment id with
    | none => .error .segUnmapped
    | some g =>
      match g.read o with
      | none => .error .segOffsetOutOfRange
      | some v => .ok v

/-- `set(id, offset, value)` (R61). -/
def SegMgr.set (m : SegMgr) (id o v : Word) : Except Fault SegMgr :=
  if id = 0#32 then .error .segIdZero
  else
    match m.segment id with
    | none => .error .segUnmapped
    | some g =>
      match g.write o v with
      | none => .error .segOffsetOutOfRange
      | some g' => .ok (m.setSegment id g')

/-- `duplicate(id)` (R62): only the two id conditions apply (90_conflicts.md C3). -/
def SegMgr.duplicate (m : SegMgr) (id : Word) : Except Fault Segment :=
  if id = 0#32 then .error .segIdZero
  else
    match m.segment id with
    | none => .error .segUnmapped
    | some g => .ok g

/-- `free()`, the teardown (R63): every segment and all the manager's storage is released. With no id mapped or free, I6 of
10_state.md R33 leaves only `next_unused_id = 1` (log entry 16). It runs after the CORE has stopped, so no step calls it. -/
def SegMgr.free (_ : SegMgr) : SegMgr := SegMgr.new

/-- CAN_ALLOCATE(state, size) (R74): the parameter as a predicate on the manager's state and the requested size. -/
def State.canAllocate (s : State) (size : Word) : Bool := !s.allocDenied.contains (s.mgr, size)

/-! ## Segment access (20_memory.md R52, R65): id 0 is A0, every other id goes through the manager -/

/-- `MemRead((id, o), 1)` (00_scope.md R12). -/
def State.memRead (s : State) (id o : Word) : Except Fault Word :=
  if id = 0#32 then
    match s.a0.read o with
    | none => .error .seg0OutOfRange
    | some v => .ok v
  else s.mgr.get id o

/-- `MemWrite((id, o), 1, v)` (00_scope.md R12). -/
def State.memWrite (s : State) (id o v : Word) : Except Fault State :=
  if id = 0#32 then
    match s.a0.write o v with
    | none => .error .seg0OutOfRange
    | some g => .ok { s with a0 := g }
  else (s.mgr.set id o v).map fun m => { s with mgr := m }

/-- The segment an id names (R52): A0 for 0, the mapped segment otherwise. -/
def State.segmentAt (s : State) (id : Word) : Option Segment := if id = 0#32 then some s.a0 else s.mgr.segment id

/-- The word at an address, none where no word exists: the view in which claims about memory are stated. -/
def State.wordAt (s : State) (id o : Word) : Option Word := (s.segmentAt id).bind fun g => g.read o

/-- The canonical form of the whole memory. -/
abbrev Memory.wf (s : State) : Prop :=
  s.a0.wf ∧ Assoc.Rising s.mgr.segments ∧ ∀ e ∈ s.mgr.segments, e.2.wf

/-! ## The fetch unit (10_state.md R36) -/

/-- Fetch (40_cycle.md R121): the word at `pc`, and the state with `pc` past it. -/
def State.fetch (s : State) : Except Fault (Word × State) :=
  match s.a0.read s.pc with
  | none => .error .pcOutOfRange
  | some w => .ok (w, { s with pc := s.pc + 1 })

/-- The command `halt` (R36). -/
def State.halt (s : State) : State := { s with run := .halted }

/-- The command `jump(t)` (R36). -/
def State.jump (s : State) (t : Word) : State := { s with pc := t }

/-- The command `replace(S)` (R36). -/
def State.replaceA0 (s : State) (g : Segment) : State := { s with a0 := g }

/-! ## Ending an instruction -/

/-- Taking a fault, `raise Fatal(r)` (60_exceptions.md R200): the run state becomes `faulted r` and nothing else changes
(40_cycle.md R125). No state is saved, there is no handler, and nothing returns from it (R205). -/
def State.raise (s : State) (r : Fault) : State := { s with run := .faulted r }

/-- The end of an instruction's pseudocode: the state it leaves, or the fault it raised in the state it began with. -/
def State.settle (s : State) (e : Except Fault State) : Host.Outcome State Fault Refusal :=
  .next (match e with
    | .ok t => t
    | .error r => s.raise r)

/-- A wait (40_cycle.md R128(d)): the cycle has not completed, so the state is again the one it began with, its fetch undone. -/
def State.holdCycle (s : State) : State := { s with pc := s.pc - 1 }

end Sys2Proof.Machine
end

