-- ==== Sys2Proof/Machine/Flags.lean ====
section
/-! DEFINITION. The CORE has "no condition codes, no status flags and no predicates other than the run state" (10_state.md R29):
here stand the zero test that takes their place and the codes and classes of the fault reasons. The run state is a field of State. -/

namespace Sys2Proof.Machine

/-- The test `x != 0` of opcodes 0 and 12 (R29). -/
def nonZero (v : Word) : Bool := v != 0#32

/-- The classes of 60_exceptions.md R201; `ResourceExhausted` belongs to none of the source's three. -/
inductive FaultClass where
  | malformedProgram
  | memoryContract
  | arithmeticOrIo
  | noneInSource
  deriving DecidableEq, Repr

/-- The code of a fault reason (R201). -/
def Fault.code : Fault → Nat
  | .pcOutOfRange => 1
  | .invalidOpcode => 2
  | .seg0OutOfRange => 3
  | .segIdZero => 4
  | .segUnmapped => 5
  | .segOffsetOutOfRange => 6
  | .divideByZero => 7
  | .outputOutOfRange => 8
  | .resourceExhausted => 9

/-- The class of a fault reason (R201). -/
def Fault.faultClass : Fault → FaultClass
  | .pcOutOfRange => .malformedProgram
  | .invalidOpcode => .malformedProgram
  | .seg0OutOfRange => .memoryContract
  | .segIdZero => .memoryContract
  | .segUnmapped => .memoryContract
  | .segOffsetOutOfRange => .memoryContract
  | .divideByZero => .arithmeticOrIo
  | .outputOutOfRange => .arithmeticOrIo
  | .resourceExhausted => .noneInSource

end Sys2Proof.Machine
end

