-- ==== Sys2Proof/Machine/Operands.lean ====
section
/-! DEFINITION. The operand forms: a register, the immediate of Load Immediate, and the segment-plus-offset address
of 42_load_store.md, taken from two registers. -/

namespace Sys2Proof.Machine

/-- The address `(id, offset)` a LOAD reads: `(x[b], x[c])` (R160). -/
def loadAddr (b c : RegIdx) (s : State) : Word × Word := (s.x b, s.x c)

/-- The address `(id, offset)` a STORE writes: `(x[a], x[b])` (R161). -/
def storeAddr (a b : RegIdx) (s : State) : Word × Word := (s.x a, s.x b)

/-- `zext_32(imm)` (30_encoding.md R95). -/
def immediate (imm : Nat) : Word := BitVec.ofNat 32 imm

end Sys2Proof.Machine
end

