-- ==== Sys2Proof/Machine/Alu.lean ====
section
/-! DEFINITION. The instructions of the alu (41_alu.md): CMOV, ADD, MUL, DIV, NAND, LI. Each runs after the fetch, so `pc`
already holds the instruction's offset plus 1 (40_cycle.md R129). Operands are unsigned; results narrow to 32 bits (R11, R146). -/

namespace Sys2Proof.Machine

/-- `(x + y) mod 2^32` (R141). -/
def aluAdd (x y : Word) : Word := BitVec.ofNat 32 (x.toNat + y.toNat)

/-- `(x * y) mod 2^32` (R142). -/
def aluMul (x y : Word) : Word := BitVec.ofNat 32 (x.toNat * y.toNat)

/-- Unsigned truncating division; a zero divisor faults (R143). -/
def aluDiv (x y : Word) : Except Fault Word :=
  if y = 0#32 then .error .divideByZero else .ok (BitVec.ofNat 32 (x.toNat / y.toNat))

/-- `~(x & y)` in 32 bits (R144). -/
def aluNand (x y : Word) : Word := ~~~(x &&& y)

/-- CMOV (R140). -/
def execCmov (a b c : RegIdx) (s : State) : Host.Outcome State Fault Refusal :=
  s.settle (.ok (if nonZero (s.x c) then s.writeReg a (s.x b) else s))

/-- ADD (R141). -/
def execAdd (a b c : RegIdx) (s : State) : Host.Outcome State Fault Refusal :=
  s.settle (.ok (s.writeReg a (aluAdd (s.x b) (s.x c))))

/-- MUL (R142). -/
def execMul (a b c : RegIdx) (s : State) : Host.Outcome State Fault Refusal :=
  s.settle (.ok (s.writeReg a (aluMul (s.x b) (s.x c))))

/-- DIV (R143). -/
def execDiv (a b c : RegIdx) (s : State) : Host.Outcome State Fault Refusal :=
  s.settle ((aluDiv (s.x b) (s.x c)).map fun q => s.writeReg a q)

/-- NAND (R144). -/
def execNand (a b c : RegIdx) (s : State) : Host.Outcome State Fault Refusal :=
  s.settle (.ok (s.writeReg a (aluNand (s.x b) (s.x c))))

/-- LI (R145). -/
def execLi (a : RegIdx) (imm : Nat) (s : State) : Host.Outcome State Fault Refusal :=
  s.settle (.ok (s.writeReg a (immediate imm)))

end Sys2Proof.Machine
end

