-- ==== Sys2Proof/Machine/Control.lean ====
section
/-! DEFINITION. Halt and Load Program (43_control.md), which drive the fetch unit. -/

namespace Sys2Proof.Machine

/-- HALT (R170). -/
def execHalt (s : State) : Host.Outcome State Fault Refusal :=
  s.settle (.ok s.halt)

/-- LOADP (R171): the jump happens whether or not A0 was replaced, and its target is not checked here. -/
def execLoadp (b c : RegIdx) (s : State) : Host.Outcome State Fault Refusal :=
  s.settle
    (if nonZero (s.x b) then (s.mgr.duplicate (s.x b)).map fun g => (s.replaceA0 g).jump (s.x c)
     else .ok (s.jump (s.x c)))

end Sys2Proof.Machine
end

