-- ==== Sys2Proof/Machine/Io.lean ====
section
/-! DEFINITION. Output and Input (45_io.md) and the host's side of the input channel (60_exceptions.md R220, R223). -/

namespace Sys2Proof.Machine

/-- The value an Input loads for a response (R191): a byte zero-extended, or 0xFFFFFFFF at end-of-stream. -/
def InResponse.value : InResponse → Word
  | .byte b => BitVec.ofNat 32 b.toNat
  | .eof => 0xFFFFFFFF#32

/-- `OutWrite(v)` (R190): the byte is appended to the log; a value above 255 faults and is not truncated. -/
def State.outWrite (s : State) (v : Word) : Except Fault State :=
  if v.toNat > 255 then .error .outputOutOfRange
  else .ok { s with output := s.output ++ [BitVec.ofNat 8 v.toNat] }

/-- OUT (R190). -/
def execOut (c : RegIdx) (s : State) : Host.Outcome State Fault Refusal :=
  s.settle (s.outWrite (s.x c))

/-- IN (R191): consume the next response; without one the cycle waits and "no state of the CORE changes". -/
def execIn (c : RegIdx) (s : State) : Host.Outcome State Fault Refusal :=
  match s.input with
  | [] => .next s.holdCycle
  | r :: rest => s.settle (.ok (({ s with input := rest } : State).writeReg c r.value))

/-- The host answers an Input (R223), at a time of its choosing: its response queues behind those not yet consumed. -/
def State.respond (s : State) (r : InResponse) : State := { s with input := s.input ++ [r] }

end Sys2Proof.Machine
end

