-- ==== Sys2Proof/Machine/LoadStore.lean ====
section
/-! DEFINITION. Segmented Load and Segmented Store (42_load_store.md). -/

namespace Sys2Proof.Machine

/-- LOAD (R160). -/
def execLoad (a b c : RegIdx) (s : State) : Host.Outcome State Fault Refusal :=
  s.settle ((s.memRead (loadAddr b c s).1 (loadAddr b c s).2).map fun v => s.writeReg a v)

/-- STORE (R161). -/
def execStore (a b c : RegIdx) (s : State) : Host.Outcome State Fault Refusal :=
  s.settle (s.memWrite (storeAddr a b s).1 (storeAddr a b s).2 (s.x c))

end Sys2Proof.Machine
end

