-- ==== Sys2Proof/Machine/SegmentAlloc.lean ====
section
/-! DEFINITION. Map Segment and Unmap Segment (44_segment.md). -/

namespace Sys2Proof.Machine

/-- MAP (R180): `x[b] <- map(x[c])`. -/
def execMap (b c : RegIdx) (s : State) : Host.Outcome State Fault Refusal :=
  s.settle ((s.mgr.map (s.canAllocate (s.x c)) (s.x c)).map fun r => ({ s with mgr := r.2 } : State).writeReg b r.1)

/-- UNMAP (R181): `unmap(x[c])`. -/
def execUnmap (c : RegIdx) (s : State) : Host.Outcome State Fault Refusal :=
  s.settle ((s.mgr.unmap (s.x c)).map fun m => { s with mgr := m })

end Sys2Proof.Machine
end

