-- ==== Sys2Proof/Machine/Step.lean ====
section
/-! DEFINITION. One cycle (40_cycle.md R120 to R124), and the host's way to place a word where the next cycle fetches. -/

namespace Sys2Proof.Machine

/-- One step. In Running it is one cycle (R124): fetch, decode, execute. "In Halted and in Faulted(r) no cycle runs, nothing is
fetched and no state changes" (R120), so the step answers the same state. -/
def step (s : State) : Host.Outcome State Fault Refusal :=
  match s.run with
  | .running =>
    match s.fetch with
    | .error r => .next (s.raise r)
    | .ok (w, s') =>
      match decode w with
      | .error _ => .next (s'.raise .invalidOpcode)
      | .ok i => exec i s'
  | .halted => .next s
  | .faulted _ => .next s

/-- `s` with the table word stored at `pc` in A0, the run state Running, and A0 just long enough to hold it. The one offset no
segment can hold, 2^32 - 1, is replaced by offset 0. -/
def State.withFetchWord (s : State) (nbits w : Nat) : State :=
  let p : Word := if s.pc = 0xFFFFFFFF#32 then 0#32 else s.pc
  let len : Word := if p < s.a0.len then s.a0.len else p + 1
  { s with
    run := .running
    pc := p
    a0 := { len := len, cells := Segment.putCell s.a0.cells p.toNat (tableWord nbits w) } }

end Sys2Proof.Machine
end

