-- ==== Sys2Proof/Machine/Launch.lean ====
section
/-! DEFINITION. Launch (70_reset_and_hazards.md R240 to R243): the reset state with the host's program image in A0. -/

namespace Sys2Proof.Machine

/-- A launch with an image of words; an image longer than MAX_IMAGE_WORDS has no run (R243). -/
def State.launchWords (cfg : LaunchConfig) (image : List Word) : Option State :=
  if image.length ≤ cfg.maxImageWords.toNat then some { State.reset with a0 := Segment.ofWords image } else none

/-- A launch with an image file (R50, R243): with LOADER_REMAINDER = Reject, a file whose length is no multiple of 4 has no run. -/
def State.launch (cfg : LaunchConfig) (file : List Byte) : Option State :=
  match cfg.remainder, imageRemainder file with
  | .reject, _ :: _ => none
  | _, _ => State.launchWords cfg (imageWords file)

end Sys2Proof.Machine
end

