-- ==== Sys2Proof/Safety.lean ====
section
/-! DEFINITION. What claims speak of: the invariant of the machine (10_state.md R33), the observation of a run
(60_exceptions.md R221), a run without a fault, and histories of segment allocation (44_segment.md R183). -/

namespace Sys2Proof.Machine

/-- The invariants I1, I2, I3, I5 and I6 of R33, with the canonical form of the segments. (I4 is about two states.) -/
structure SegMgr.Inv (m : SegMgr) : Prop where
  /-- The high-water mark "Starts at 1" and only grows. -/
  next_pos : 1 ≤ m.nextUnusedId
  /-- It ranges over 1 to 2^32 (R32). -/
  next_le : m.nextUnusedId ≤ Config.idLimit
  /-- The map of live segments is in canonical form. -/
  segments_rising : Assoc.Rising m.segments
  /-- So is every live segment. -/
  segments_wf : ∀ e ∈ m.segments, e.2.wf
  /-- I1 and I2: a mapped id is not 0 and below the high-water mark. -/
  mapped_range : ∀ e ∈ m.segments, 1 ≤ e.1 ∧ e.1 < m.nextUnusedId
  /-- I5: no id is free twice. -/
  free_nodup : m.freeIds.Nodup
  /-- I5: every free id is at least 1 and below the high-water mark. -/
  free_range : ∀ id ∈ m.freeIds, 1 ≤ id.toNat ∧ id.toNat < m.nextUnusedId
  /-- I3: a free id is not mapped. -/
  free_unmapped : ∀ id ∈ m.freeIds, m.isMapped id = false
  /-- I6: every id below the high-water mark is mapped or free. -/
  covered : ∀ id : Word, 1 ≤ id.toNat → id.toNat < m.nextUnusedId → m.isMapped id = true ∨ id ∈ m.freeIds

/-- The invariant every step keeps: memory in canonical form and the segment manager's invariants. -/
structure State.Inv (s : State) : Prop where
  a0_wf : s.a0.wf
  mgr_inv : s.mgr.Inv

/-- The registers an instruction reads (10_state.md R22). -/
def readRegs : Instr → List RegIdx
  | .cmov _ b c => [b, c]
  | .load _ b c => [b, c]
  | .store a b c => [a, b, c]
  | .add _ b c => [b, c]
  | .mul _ b c => [b, c]
  | .div _ b c => [b, c]
  | .nand _ b c => [b, c]
  | .halt => []
  | .map _ c => [c]
  | .unmap c => [c]
  | .out c => [c]
  | .inp _ => []
  | .loadp b c => [b, c]
  | .li _ _ => []

/-- Everything but the registers is the same in both states. -/
structure SameButRegs (s t : State) : Prop where
  pc : t.pc = s.pc
  run : t.run = s.run
  a0 : t.a0 = s.a0
  mgr : t.mgr = s.mgr
  output : t.output = s.output
  input : t.input = s.input
  allocDenied : t.allocDenied = s.allocDenied

/-- The frame of an instruction that writes register `a` and nothing else. -/
def OnlyRegChanges (a : RegIdx) (s t : State) : Prop := SameButRegs s t ∧ ∀ k, k ≠ a → t.x k = s.x k

/-- The frame of an instruction that changes segments and nothing else. -/
structure OnlySegmentsChange (s t : State) : Prop where
  regs : ∀ k, t.x k = s.x k
  pc : t.pc = s.pc
  run : t.run = s.run
  output : t.output = s.output
  input : t.input = s.input
  allocDenied : t.allocDenied = s.allocDenied

/-- What a `map` of `size` words that gives `id` leaves (44_segment.md R180): `x[b] = id`, a segment of `size` zero words at
`id`, every other segment and every other piece of state as before (`free_ids` and `next_unused_id` are said apart). -/
structure MapsSegment (b : RegIdx) (size id : Word) (s t : State) : Prop where
  dest : t.x b = id
  otherRegs : ∀ k, k ≠ b → t.x k = s.x k
  segment : ∃ g, t.mgr.segment id = some g ∧ g.len = size ∧ ∀ o, o < size → g.read o = some 0#32
  otherSegments : ∀ j, j ≠ id → t.mgr.segment j = s.mgr.segment j
  otherWords : ∀ j o, j ≠ id → t.wordAt j o = s.wordAt j o
  pc : t.pc = s.pc
  run : t.run = s.run
  a0 : t.a0 = s.a0
  output : t.output = s.output
  input : t.input = s.input
  allocDenied : t.allocDenied = s.allocDenied

/-- The instruction the next cycle executes is `i`. -/
def State.nextInstr (s : State) (i : Instr) : Prop := ∃ w, s.a0.read s.pc = some w ∧ decode w = .ok i

/-- How a run ended, as the outside sees it: fault reasons "are not distinguished at the external interface" (R43, R202). -/
inductive EndStatus where
  | halted
  | faulted
  deriving DecidableEq, Repr

/-- What the host reads (R43, R223): how the run ended, if it has, and the bytes emitted. -/
structure Observation where
  status : Option EndStatus
  output : List Byte
  deriving DecidableEq, Repr

/-- The observation of a state. -/
def State.observe (s : State) : Observation :=
  { status :=
      match s.run with
      | .running => none
      | .halted => some .halted
      | .faulted _ => some .faulted
    output := s.output }

/-- A state that is not faulted. -/
def State.clean (s : State) : Bool :=
  match s.run with
  | .running => true
  | .halted => true
  | .faulted _ => false

/-- `k` steps from `s` pass through no faulted state and stop nowhere. -/
def SafeRun : Nat → State → Prop
  | 0, s => s.clean = true
  | k + 1, s => s.clean = true ∧ ∃ t, step s = .next t ∧ SafeRun k t

/-- `s` waits for the host (R128(d)): the next instruction is an Input and no response is queued. -/
def State.waiting (s : State) : Prop :=
  s.run = .running ∧ s.input = [] ∧ ∃ c, s.nextInstr (.inp c)

/-- A call of `map` or `unmap`; `allowed` is what CAN_ALLOCATE says of that call. -/
inductive SegCall where
  | map (allowed : Bool) (size : Word)
  | unmap (id : Word)
  deriving DecidableEq, Repr

/-- Run calls on a manager: the manager after them and, newest first, which id each call mapped (true) or unmapped (false). -/
def SegMgr.replay (m : SegMgr) (log : List (Word × Bool)) : List SegCall → Except Fault (SegMgr × List (Word × Bool))
  | [] => .ok (m, log)
  | .map allowed size :: rest =>
    match m.map allowed size with
    | .error r => .error r
    | .ok (id, m') => m'.replay ((id, true) :: log) rest
  | .unmap id :: rest =>
    match m.unmap id with
    | .error r => .error r
    | .ok m' => m'.replay ((id, false) :: log) rest

/-- The most recent event of an id in a log. -/
def lastEvent (log : List (Word × Bool)) (id : Word) : Option Bool := (log.find? fun e => e.1 == id).map (·.2)

end Sys2Proof.Machine
end

