-- ==== Sys2Proof/Certificates/Slice0/Obligations.lean ====
section
/-! DEFINITION. The statements of this row, for the provers. -/

open Sys2Proof Sys2Proof.Machine

/-! ## Reset and launch -/

/-- R44: the reset value of every piece of state, for every image the host may hand over. -/
def Obligations.LaunchGivesResetValues : Prop :=
  ∀ (cfg : LaunchConfig) (image : List Word), image.length ≤ cfg.maxImageWords.toNat →
    ∃ s, State.launchWords cfg image = some s ∧ s.run = .running ∧ s.pc = 0#32 ∧ (∀ k, s.x k = 0#32) ∧
      s.a0.len.toNat = image.length ∧ (∀ o : Word, s.a0.read o = image[o.toNat]?) ∧
      s.mgr.nextUnusedId = 1 ∧ s.mgr.freeIds = [] ∧ s.mgr.segments = [] ∧ ∀ id, s.mgr.mappedBitmap id = false

/-- R50: the big-endian image file; word k is `A0[k]` at reset. -/
def Obligations.ImageFileIsBigEndian : Prop :=
  ∀ (cfg : LaunchConfig) (file : List Byte) (s : State), State.launch cfg file = some s →
    s.a0.len.toNat = file.length / 4 ∧
    ∀ (k : Word) (b0 b1 b2 b3 : Byte), file[4 * k.toNat]? = some b0 → file[4 * k.toNat + 1]? = some b1 →
      file[4 * k.toNat + 2]? = some b2 → file[4 * k.toNat + 3]? = some b3 →
      (s.a0.read k).map BitVec.toNat =
        some (b0.toNat * 2 ^ 24 + b1.toNat * 2 ^ 16 + b2.toNat * 2 ^ 8 + b3.toNat)

/-- Which image files have a run (70_reset_and_hazards.md section 2, decisions D4 and D13, log entry 11), by the parameters LOADER_REMAINDER and MAX_IMAGE_WORDS. -/
def Obligations.LaunchAcceptsByItsParameters : Prop :=
  ∀ (cfg : LaunchConfig) (file : List Byte),
    (State.launch cfg file).isSome = true ↔
      (cfg.remainder = .reject → file.length % 4 = 0) ∧ file.length / 4 ≤ cfg.maxImageWords.toNat

/-! ## Encoding -/

/-- R91, R92, R97: decoding the word of any well-formed instruction gives it back, with every operand at every value. -/
def Obligations.DecodeOfEncode : Prop :=
  ∀ i : Instr, i.wellFormed = true → decode (encode i) = .ok i

/-- R91, R92, R99: a decoded instruction is well-formed, and its word is the decoded word with the ignored bits cleared. -/
def Obligations.EncodeOfDecode : Prop :=
  ∀ (w : Word) (i : Instr), decode w = .ok i → i.wellFormed = true ∧
    (encode i).toNat = w.toNat / 2 ^ 28 * 2 ^ 28 + w.toNat % 2 ^ decidingLowBits i

/-- R100 (the spec's own inference, marked [derived]): the word space splits into the 14 opcodes and the two invalid ones. -/
def Obligations.DecoderIsTotal : Prop :=
  ∀ w : Word,
    (w.toNat / 2 ^ 28 ≤ 13 → ∃ i, decode w = .ok i ∧ i.opcode = w.toNat / 2 ^ 28) ∧
    (14 ≤ w.toNat / 2 ^ 28 → decode w = .error (.invalidOpcode (w.toNat / 2 ^ 28)))

/-- R99 (the spec's decision D5): bits 27 to 9 of format R, and the fields an opcode does not read, decide nothing and never fault. -/
def Obligations.UnusedBitsAreIgnored : Prop :=
  ∀ w v : Word, v.toNat / 2 ^ 28 = w.toNat / 2 ^ 28 →
    (w.toNat / 2 ^ 28 ≤ 12 → v.toNat % 2 ^ 9 = w.toNat % 2 ^ 9 → decode v = decode w ∧ ∃ i, decode w = .ok i) ∧
    (w.toNat / 2 ^ 28 = 7 → decode v = decode w) ∧
    (w.toNat / 2 ^ 28 = 8 ∨ w.toNat / 2 ^ 28 = 12 → v.toNat % 2 ^ 6 = w.toNat % 2 ^ 6 → decode v = decode w) ∧
    (w.toNat / 2 ^ 28 = 9 ∨ w.toNat / 2 ^ 28 = 10 ∨ w.toNat / 2 ^ 28 = 11 →
      v.toNat % 2 ^ 3 = w.toNat % 2 ^ 3 → decode v = decode w)

/-- R96: field extraction, its rejection, and that the decoder's fixed arguments are never rejected. -/
def Obligations.FieldExtractionRule : Prop :=
  (∀ w width lsb : Nat, width ≤ 64 → width + lsb ≤ 64 →
    extractUnsigned w width lsb = some (w / 2 ^ lsb % 2 ^ width)) ∧
  (∀ w width lsb : Nat, 64 < width ∨ 64 < width + lsb → extractUnsigned w width lsb = none) ∧
  (∀ w : Word, ∀ p ∈ [(4, 28), (3, 6), (3, 3), (3, 0), (3, 25), (25, 0)],
    extractUnsigned w.toNat p.1 p.2 = some (field w p.1 p.2))

/-- Words assembled by hand from R91 and R92 (95_test_vectors.md, section 2.1 and the programs). -/
def Obligations.SpecWordsDecode : Prop :=
  decode 0x0FFFFE53#32 = .ok (.cmov 1 2 3) ∧ decode 0x10000195#32 = .ok (.load 6 2 5) ∧
  decode 0x200000AC#32 = .ok (.store 2 5 4) ∧ decode 0x7FFFFFFF#32 = .ok .halt ∧
  decode 0x80000013#32 = .ok (.map 2 3) ∧ decode 0xA0000001#32 = .ok (.out 1) ∧
  decode 0xC0000010#32 = .ok (.loadp 2 0) ∧ decode 0xDFFFFFFF#32 = .ok (.li 7 0x1FFFFFF)

/-! ## The cycle -/

/-- R120: outside Running nothing happens. -/
def Obligations.NoCycleOutsideRunning : Prop :=
  ∀ s : State, s.run ≠ .running → step s = .next s

/-- R121: the fetch, and the fault of a fetch past the end, which leaves `pc` unchanged. -/
def Obligations.FetchRule : Prop :=
  ∀ s : State,
    (∀ w, s.a0.read s.pc = some w → s.fetch = .ok (w, { s with pc := s.pc + 1 })) ∧
    (s.a0.len ≤ s.pc → s.fetch = .error .pcOutOfRange) ∧
    (s.run = .running → s.a0.len ≤ s.pc → step s = .next { s with run := .faulted .pcOutOfRange })

/-- R27 (the spec's own inference, marked [derived]): `pc` never wraps. -/
def Obligations.PcNeverWraps : Prop :=
  ∀ (s t : State) (w : Word), s.fetch = .ok (w, t) →
    s.pc.toNat < s.a0.len.toNat ∧ t.pc.toNat = s.pc.toNat + 1 ∧ t.pc.toNat ≤ 2 ^ 32 - 1

/-- R98: opcodes 14 and 15 fault when fetched, whatever the other 28 bits, and only a fetched word does. -/
def Obligations.InvalidOpcodeFaults : Prop :=
  (∀ (s : State) (w : Word), s.run = .running → s.a0.read s.pc = some w → 14 ≤ w.toNat / 2 ^ 28 →
    step s = .next { s with pc := s.pc + 1, run := .faulted .invalidOpcode }) ∧
  (∀ s t : State, s.run = .running → step s = .next t → t.run = .faulted .invalidOpcode →
    ∃ w, s.a0.read s.pc = some w ∧ 14 ≤ w.toNat / 2 ^ 28)

/-- R123, R124: a step runs the decoded instruction, with `pc` already past it. -/
def Obligations.StepRunsDecodedInstruction : Prop :=
  ∀ (s : State) (w : Word) (i : Instr), s.run = .running → s.a0.read s.pc = some w → decode w = .ok i →
    step s = exec i { s with pc := s.pc + 1 }

/-- R128 (the spec's own inference, marked [derived]): the four outcomes of a cycle, and what lifts a wait. That a wait is a step
to the same state is the model's choice (log entry 5). -/
def Obligations.CycleOutcomes : Prop :=
  (∀ s : State, s.run = .running → ∃ t, step s = .next t ∧
    ((t.run = .running ∧ ¬ s.waiting) ∨ (t.run = .halted ∧ s.nextInstr .halt) ∨
      (∃ r, t.run = .faulted r) ∨ (s.waiting ∧ t = s))) ∧
  (∀ (s : State) (r : InResponse), s.waiting → ¬ (s.respond r).waiting)

/-- R125 (the spec's decision D6): a faulting cycle changes nothing but the run state and, after the fetch, `pc`. -/
def Obligations.FaultingCycleIsAtomic : Prop :=
  ∀ (s t : State) (r : Fault), s.run = .running → step s = .next t → t.run = .faulted r →
    (r = .pcOutOfRange → t = { s with run := .faulted r }) ∧
    (r ≠ .pcOutOfRange → t = { s with run := .faulted r, pc := s.pc + 1 })

/-- R28 (its third value is the spec's decision D6): only opcode 7 sets Halted, nothing clears it, and a fault is never left. -/
def Obligations.RunStateChanges : Prop :=
  ∀ s t : State, step s = .next t →
    (s.run = .running → t.run = .halted → s.nextInstr .halt) ∧
    (s.run = .running → s.nextInstr .halt → t.run = .halted) ∧
    (s.run = .halted → t.run = .halted) ∧
    (∀ r, s.run = .faulted r → t.run = .faulted r)

/-- The table of R201 (its codes are the spec's decision D7; an out-of-range `next_unused_id` is log entry 13): every fault reason is recorded only when its cause holds, by an instruction the table names, and has its code. -/
def Obligations.FaultReasonsHaveTheirCauses : Prop :=
  (∀ (s t : State) (r : Fault), s.run = .running → step s = .next t → t.run = .faulted r →
    match r with
    | .pcOutOfRange => s.a0.len ≤ s.pc
    | .invalidOpcode => ∃ w, s.a0.read s.pc = some w ∧ 14 ≤ w.toNat / 2 ^ 28
    | .seg0OutOfRange =>
      (∃ a b c, s.nextInstr (.load a b c) ∧ s.x b = 0#32 ∧ s.a0.len ≤ s.x c) ∨
      (∃ a b c, s.nextInstr (.store a b c) ∧ s.x a = 0#32 ∧ s.a0.len ≤ s.x b)
    | .segIdZero => ∃ c, s.nextInstr (.unmap c) ∧ s.x c = 0#32
    | .segUnmapped =>
      (∃ a b c, s.nextInstr (.load a b c) ∧ s.x b ≠ 0#32 ∧ s.mgr.isMapped (s.x b) = false) ∨
      (∃ a b c, s.nextInstr (.store a b c) ∧ s.x a ≠ 0#32 ∧ s.mgr.isMapped (s.x a) = false) ∨
      (∃ b c, s.nextInstr (.loadp b c) ∧ s.x b ≠ 0#32 ∧ s.mgr.isMapped (s.x b) = false) ∨
      (∃ c, s.nextInstr (.unmap c) ∧ s.x c ≠ 0#32 ∧ s.mgr.isMapped (s.x c) = false)
    | .segOffsetOutOfRange =>
      (∃ a b c g, s.nextInstr (.load a b c) ∧ s.x b ≠ 0#32 ∧ s.mgr.segment (s.x b) = some g ∧ g.len ≤ s.x c) ∨
      (∃ a b c g, s.nextInstr (.store a b c) ∧ s.x a ≠ 0#32 ∧ s.mgr.segment (s.x a) = some g ∧ g.len ≤ s.x b)
    | .divideByZero => ∃ a b c, s.nextInstr (.div a b c) ∧ s.x c = 0#32
    | .outputOutOfRange => ∃ c, s.nextInstr (.out c) ∧ 255 < (s.x c).toNat
    | .resourceExhausted =>
      ∃ b c, s.nextInstr (.map b c) ∧
        (s.canAllocate (s.x c) = false ∨ (s.mgr.freeIds = [] ∧ 2 ^ 32 ≤ s.mgr.nextUnusedId))) ∧
  [Fault.pcOutOfRange, .invalidOpcode, .seg0OutOfRange, .segIdZero, .segUnmapped, .segOffsetOutOfRange,
    .divideByZero, .outputOutOfRange, .resourceExhausted].map (fun r => (r.code, r.faultClass)) =
    [(1, .malformedProgram), (2, .malformedProgram), (3, .memoryContract), (4, .memoryContract), (5, .memoryContract),
      (6, .memoryContract), (7, .arithmeticOrIo), (8, .arithmeticOrIo), (9, .noneInSource)]

/-- R200, R205: a fault is never left, so a run of `k` steps is free of faults exactly when its last state is. -/
def Obligations.FaultFreeRunsEndClean : Prop :=
  ∀ (k : Nat) (s : State), SafeRun k s ↔ ∃ t : State, core.run k s = .next t ∧ t.clean = true

/-! ## The alu -/

/-- R140: Conditional Move. -/
def Obligations.ConditionalMoveRule : Prop :=
  ∀ (a b c : RegIdx) (s : State),
    encode (.cmov a b c) = BitVec.ofNat 32 (0x00000000 + a.val * 64 + b.val * 8 + c.val) ∧
    (s.x c ≠ 0#32 → ∃ t, exec (.cmov a b c) s = .next t ∧ OnlyRegChanges a s t ∧ t.x a = s.x b) ∧
    (s.x c = 0#32 → exec (.cmov a b c) s = .next s)

/-- R141: Add. -/
def Obligations.AddRule : Prop :=
  ∀ (a b c : RegIdx) (s : State),
    encode (.add a b c) = BitVec.ofNat 32 (0x30000000 + a.val * 64 + b.val * 8 + c.val) ∧
    ∃ t, exec (.add a b c) s = .next t ∧ OnlyRegChanges a s t ∧
      (t.x a).toNat = ((s.x b).toNat + (s.x c).toNat) % 2 ^ 32

/-- R142: Multiply. -/
def Obligations.MultiplyRule : Prop :=
  ∀ (a b c : RegIdx) (s : State),
    encode (.mul a b c) = BitVec.ofNat 32 (0x40000000 + a.val * 64 + b.val * 8 + c.val) ∧
    ∃ t, exec (.mul a b c) s = .next t ∧ OnlyRegChanges a s t ∧
      (t.x a).toNat = ((s.x b).toNat * (s.x c).toNat) % 2 ^ 32

/-- R143: Divide, and its fault. -/
def Obligations.DivideRule : Prop :=
  ∀ (a b c : RegIdx) (s : State),
    encode (.div a b c) = BitVec.ofNat 32 (0x50000000 + a.val * 64 + b.val * 8 + c.val) ∧
    (s.x c ≠ 0#32 → ∃ t, exec (.div a b c) s = .next t ∧ OnlyRegChanges a s t ∧
      (t.x a).toNat = (s.x b).toNat / (s.x c).toNat) ∧
    (s.x c = 0#32 → exec (.div a b c) s = .next { s with run := .faulted .divideByZero })

/-- R144: Bitwise NAND, bit by bit. -/
def Obligations.NandRule : Prop :=
  ∀ (a b c : RegIdx) (s : State),
    encode (.nand a b c) = BitVec.ofNat 32 (0x60000000 + a.val * 64 + b.val * 8 + c.val) ∧
    ∃ t, exec (.nand a b c) s = .next t ∧ OnlyRegChanges a s t ∧
      ∀ n, n < 32 → (t.x a).getLsbD n = !((s.x b).getLsbD n && (s.x c).getLsbD n)

/-- R145: Load Immediate, for every immediate the encoding admits. -/
def Obligations.LoadImmediateRule : Prop :=
  ∀ (a : RegIdx) (imm : Nat) (s : State), imm < 2 ^ 25 →
    encode (.li a imm) = BitVec.ofNat 32 (0xD0000000 + a.val * 0x02000000 + imm) ∧
    ∃ t, exec (.li a imm) s = .next t ∧ OnlyRegChanges a s t ∧ (t.x a).toNat = imm

/-- R101 (the spec's own inference, marked [derived]): the word 0 and, generally, a CMOV with `a = b` changes no state. -/
def Obligations.NoOperationWord : Prop :=
  decode 0x00000000#32 = .ok (.cmov 0 0 0) ∧ ∀ (a c : RegIdx) (s : State), exec (.cmov a a c) s = .next s

/-! ## Load and store -/

/-- R160: Segmented Load: the word at `(x[b], x[c])`, or the fault of the check that fails. -/
def Obligations.LoadRule : Prop :=
  ∀ (a b c : RegIdx) (s : State),
    encode (.load a b c) = BitVec.ofNat 32 (0x10000000 + a.val * 64 + b.val * 8 + c.val) ∧
    (∀ v, s.wordAt (s.x b) (s.x c) = some v →
      ∃ t, exec (.load a b c) s = .next t ∧ OnlyRegChanges a s t ∧ t.x a = v) ∧
    (s.x b = 0#32 → s.a0.len ≤ s.x c →
      exec (.load a b c) s = .next { s with run := .faulted .seg0OutOfRange }) ∧
    (s.x b ≠ 0#32 → s.mgr.isMapped (s.x b) = false →
      exec (.load a b c) s = .next { s with run := .faulted .segUnmapped }) ∧
    (∀ g, s.x b ≠ 0#32 → s.mgr.segment (s.x b) = some g → g.len ≤ s.x c →
      exec (.load a b c) s = .next { s with run := .faulted .segOffsetOutOfRange })

/-- R161: Segmented Store: the one word it stores to, computed by `storeAddr` as the meaning does, every other word as
before, every length as before; or the fault of the check that fails. -/
def Obligations.StoreRule : Prop :=
  ∀ (a b c : RegIdx) (s : State),
    encode (.store a b c) = BitVec.ofNat 32 (0x20000000 + a.val * 64 + b.val * 8 + c.val) ∧
    storeAddr a b s = (s.x a, s.x b) ∧
    (∀ id o w, storeAddr a b s = (id, o) → s.wordAt id o = some w →
      ∃ t, exec (.store a b c) s = .next t ∧ OnlySegmentsChange s t ∧ t.wordAt id o = some (s.x c) ∧
        (∀ j p, (j, p) ≠ (id, o) → t.wordAt j p = s.wordAt j p) ∧
        (∀ j, (t.segmentAt j).map Segment.len = (s.segmentAt j).map Segment.len) ∧
        t.mgr.nextUnusedId = s.mgr.nextUnusedId ∧ t.mgr.freeIds = s.mgr.freeIds) ∧
    (s.x a = 0#32 → s.a0.len ≤ s.x b →
      exec (.store a b c) s = .next { s with run := .faulted .seg0OutOfRange }) ∧
    (s.x a ≠ 0#32 → s.mgr.isMapped (s.x a) = false →
      exec (.store a b c) s = .next { s with run := .faulted .segUnmapped }) ∧
    (∀ g, s.x a ≠ 0#32 → s.mgr.segment (s.x a) = some g → g.len ≤ s.x b →
      exec (.store a b c) s = .next { s with run := .faulted .segOffsetOutOfRange })

/-- R162 (the spec's own inference, marked [derived]): a store that completes, then a load from the same address. -/
def Obligations.StoreThenLoadReturnsValue : Prop :=
  ∀ (a b c d : RegIdx) (s t : State), s.run = .running → exec (.store a b c) s = .next t → t.run = .running →
    ∃ u, exec (.load d a b) t = .next u ∧ OnlyRegChanges d t u ∧ u.x d = s.x c

/-- R71 (the spec's own inference, marked [derived]): a store to A0 is what the next fetch of that offset executes. -/
def Obligations.StoredWordIsExecuted : Prop :=
  ∀ (a b c : RegIdx) (s t : State) (i : Instr), s.run = .running → s.x a = 0#32 → s.x b < s.a0.len →
    exec (.store a b c) s = .next t → decode (s.x c) = .ok i →
    step { t with pc := s.x b } = exec i { t with pc := s.x b + 1 }

/-! ## Control -/

/-- R170: Halt, and that no later cycle runs. -/
def Obligations.HaltRule : Prop :=
  ∀ s : State, encode .halt = 0x70000000#32 ∧ exec .halt s = .next { s with run := .halted } ∧
    step { s with run := .halted } = .next { s with run := .halted }

/-- R171: Load Program; the target is not checked. -/
def Obligations.LoadProgramRule : Prop :=
  ∀ (b c : RegIdx) (s : State),
    encode (.loadp b c) = BitVec.ofNat 32 (0xC0000000 + b.val * 8 + c.val) ∧
    (s.x b = 0#32 → exec (.loadp b c) s = .next { s with pc := s.x c }) ∧
    (∀ g, s.x b ≠ 0#32 → s.mgr.segment (s.x b) = some g →
      exec (.loadp b c) s = .next { s with a0 := g, pc := s.x c }) ∧
    (s.x b ≠ 0#32 → s.mgr.isMapped (s.x b) = false →
      exec (.loadp b c) s = .next { s with run := .faulted .segUnmapped })

/-- R173: after a replacement, execution goes on at `x[c]` in the new active segment. -/
def Obligations.ReplacedProgramIsFetched : Prop :=
  ∀ (s : State) (b c : RegIdx) (g : Segment) (w : Word), s.run = .running → s.nextInstr (.loadp b c) →
    s.x b ≠ 0#32 → s.mgr.segment (s.x b) = some g → g.read (s.x c) = some w →
    ∃ t, step s = .next t ∧ t.run = .running ∧ t.a0 = g ∧ t.fetch = .ok (w, { t with pc := s.x c + 1 })

/-- R72 (the spec's own inference, marked [derived]): the installed copy and its source are independent. -/
def Obligations.InstalledCopyIsIndependent : Prop :=
  (∀ (b c : RegIdx) (s t : State), exec (.loadp b c) s = .next t → t.mgr = s.mgr) ∧
  (∀ (a b c : RegIdx) (s t : State), exec (.store a b c) s = .next t →
    (s.x a ≠ 0#32 → t.a0 = s.a0) ∧ (s.x a = 0#32 → t.mgr = s.mgr)) ∧
  (∀ (c : RegIdx) (s t : State), exec (.unmap c) s = .next t → t.a0 = s.a0)

/-- R26 and R172 (the spec's own inferences, marked [derived]): `pc` after a cycle. A waiting cycle's `pc` is log entry 5. -/
def Obligations.PcAfterCycle : Prop :=
  ∀ s t : State, s.run = .running → step s = .next t →
    (s.a0.len ≤ s.pc ∧ t.pc = s.pc) ∨ (s.waiting ∧ t.pc = s.pc) ∨
    (∃ b c, s.nextInstr (.loadp b c) ∧ t.run = .running ∧ t.pc = s.x c) ∨
    (s.pc < s.a0.len ∧ ¬ s.waiting ∧ (t.run = .running → ∀ b c, ¬ s.nextInstr (.loadp b c)) ∧ t.pc = s.pc + 1)

/-- R222: a jump to itself and a wait without a response hang: no number of steps stops them. That a wait
is a step to the same state is the model's choice (log entry 5). -/
def Obligations.HangsNeverStop : Prop :=
  (∀ (k : Nat) (s : State) (b c : RegIdx), s.run = .running → s.nextInstr (.loadp b c) → s.x b = 0#32 →
    s.x c = s.pc → core.run k s = .next s) ∧
  (∀ (k : Nat) (s : State), s.waiting → core.run k s = .next s)

/-! ## Segments -/

/-- R56, as MAP (R180) calls it. CAN_ALLOCATE is the open parameter (log entry 8): the statement holds for every value of it. -/
def Obligations.MapRule : Prop :=
  ∀ (b c : RegIdx) (s : State),
    encode (.map b c) = BitVec.ofNat 32 (0x80000000 + b.val * 8 + c.val) ∧
    (∀ (id : Word) (rest : List Word), s.canAllocate (s.x c) = true → s.mgr.freeIds = id :: rest →
      ∃ t, exec (.map b c) s = .next t ∧ MapsSegment b (s.x c) id s t ∧
        t.mgr.freeIds = rest ∧ t.mgr.nextUnusedId = s.mgr.nextUnusedId) ∧
    (∀ id : Word, s.canAllocate (s.x c) = true → s.mgr.freeIds = [] → s.mgr.nextUnusedId < 2 ^ 32 →
      id.toNat = s.mgr.nextUnusedId →
      ∃ t, exec (.map b c) s = .next t ∧ MapsSegment b (s.x c) id s t ∧
        t.mgr.freeIds = [] ∧ t.mgr.nextUnusedId = s.mgr.nextUnusedId + 1) ∧
    (s.canAllocate (s.x c) = false → exec (.map b c) s = .next { s with run := .faulted .resourceExhausted }) ∧
    (s.mgr.freeIds = [] → s.mgr.nextUnusedId = 2 ^ 32 →
      exec (.map b c) s = .next { s with run := .faulted .resourceExhausted })

/-- W1 of 95_test_vectors.md (R33, R53): the id MAP gives is never 0 and never one mapped at the time. -/
def Obligations.MapGivesFreshId : Prop :=
  ∀ (b c : RegIdx) (s t : State), s.Inv → s.run = .running → exec (.map b c) s = .next t → t.run = .running →
    t.x b ≠ 0#32 ∧ s.mgr.isMapped (t.x b) = false ∧ t.mgr.isMapped (t.x b) = true

/-- R181, R58: Unmap. -/
def Obligations.UnmapRule : Prop :=
  ∀ (c : RegIdx) (s : State),
    encode (.unmap c) = BitVec.ofNat 32 (0x90000000 + c.val) ∧
    (s.x c ≠ 0#32 → s.mgr.isMapped (s.x c) = true →
      ∃ t, exec (.unmap c) s = .next t ∧ OnlySegmentsChange s t ∧ t.a0 = s.a0 ∧
        t.mgr.segment (s.x c) = none ∧ t.mgr.mappedBitmap (s.x c).toNat = false ∧
        (∀ j, j ≠ s.x c → t.mgr.segment j = s.mgr.segment j) ∧
        (∀ j o, j ≠ s.x c → t.wordAt j o = s.wordAt j o) ∧
        t.mgr.freeIds = s.x c :: s.mgr.freeIds ∧ t.mgr.nextUnusedId = s.mgr.nextUnusedId) ∧
    (s.x c = 0#32 → exec (.unmap c) s = .next { s with run := .faulted .segIdZero }) ∧
    (s.x c ≠ 0#32 → s.mgr.isMapped (s.x c) = false →
      exec (.unmap c) s = .next { s with run := .faulted .segUnmapped })

/-- R57 (normative by the spec's decision D18): `map`, then `unmap` of the returned id, then `map`, returns the same id. -/
def Obligations.LifoReuse : Prop :=
  ∀ (b c b' c' : RegIdx) (s t : State), s.Inv → s.run = .running → exec (.map b c) s = .next t → t.run = .running →
    ∃ u, exec (.unmap b) t = .next u ∧ u.run = .running ∧
      (u.canAllocate (u.x c') = true → ∃ v, exec (.map b' c') u = .next v ∧ v.run = .running ∧ v.x b' = t.x b)

/-- R182 (the spec's own inference, marked [derived]): reuse order over several unmaps. -/
def Obligations.ReuseOrderOverSeveralUnmaps : Prop :=
  ∀ n1 n2 n3 n4 n5 : Word, ∃ m1 m2 m3 m4 m5 m6 m7 : SegMgr,
    SegMgr.new.map true n1 = .ok (1#32, m1) ∧ m1.map true n2 = .ok (2#32, m2) ∧
    m2.unmap 1#32 = .ok m3 ∧ m3.unmap 2#32 = .ok m4 ∧ m4.map true n3 = .ok (2#32, m5) ∧
    m5.map true n4 = .ok (1#32, m6) ∧ m6.map true n5 = .ok (3#32, m7)

/-- R183: over every sequence of `map` and `unmap` calls that completes, an id is mapped exactly when its most recent event
is a `map`. -/
def Obligations.MappedIffLastEventIsMap : Prop :=
  ∀ (calls : List SegCall) (m : SegMgr) (log : List (Word × Bool)),
    SegMgr.new.replay [] calls = .ok (m, log) →
    ∀ id : Word, m.isMapped id = true ↔ lastEvent log id = some true

/-! ## Input and output -/

/-- R190: Output. -/
def Obligations.OutputRule : Prop :=
  ∀ (c : RegIdx) (s : State),
    encode (.out c) = BitVec.ofNat 32 (0xA0000000 + c.val) ∧
    ((s.x c).toNat ≤ 255 → ∃ byte : Byte, byte.toNat = (s.x c).toNat ∧
      exec (.out c) s = .next { s with output := s.output ++ [byte] }) ∧
    (255 < (s.x c).toNat → exec (.out c) s = .next { s with run := .faulted .outputOutOfRange })

/-- R191: Input: a byte, end-of-stream, and the wait. The queue of responses in State is log entry 6, and that a wait is a step to
the same state log entry 5. -/
def Obligations.InputRule : Prop :=
  ∀ (c : RegIdx) (s : State),
    encode (.inp c) = BitVec.ofNat 32 (0xB0000000 + c.val) ∧
    (∀ (v : Byte) (rest : List InResponse), s.input = .byte v :: rest →
      ∃ t, exec (.inp c) s = .next t ∧ t.input = rest ∧ OnlyRegChanges c { s with input := rest } t ∧
        (t.x c).toNat = v.toNat) ∧
    (∀ rest : List InResponse, s.input = .eof :: rest →
      ∃ t, exec (.inp c) s = .next t ∧ t.input = rest ∧ OnlyRegChanges c { s with input := rest } t ∧
        t.x c = 0xFFFFFFFF#32) ∧
    (s.run = .running → s.nextInstr (.inp c) → s.input = [] → step s = .next s)

/-- R220 (its log is the spec's decision D12): the output log only grows, by Output alone, one byte a cycle; nothing is removed at a fault. -/
def Obligations.OutputLogOnlyGrows : Prop :=
  ∀ s t : State, step s = .next t →
    t.output = s.output ∨
    ∃ (c : RegIdx) (byte : Byte), s.run = .running ∧ s.nextInstr (.out c) ∧ byte.toNat = (s.x c).toNat ∧
      t.output = s.output ++ [byte]

/-- R220, R223, with the queue of log entry 6: responses are consumed in order, by Input alone, and nothing else of the host's
reaches the CORE. That no step changes `allocDenied`, which stands for CAN_ALLOCATE, is the model's choice (log entry 8). -/
def Obligations.ResponsesAreConsumedInOrder : Prop :=
  ∀ s t : State, step s = .next t →
    t.allocDenied = s.allocDenied ∧
    (t.input = s.input ∨
      ∃ (c : RegIdx) (r : InResponse), s.run = .running ∧ s.nextInstr (.inp c) ∧ s.input = r :: t.input ∧
        t.x c = r.value)

/-- R202: the fault reason is not visible outside, that is, not part of the model's observation of a state (R43, R221). -/
def Obligations.ReasonIsNotObserved : Prop :=
  ∀ (s : State) (r r' : Fault),
    ({ s with run := .faulted r } : State).observe = ({ s with run := .faulted r' } : State).observe ∧
    ({ s with run := .faulted r } : State).observe = ⟨some .faulted, s.output⟩

/-! ## Whole-machine rules -/

/-- R23 (the spec's own inference, marked [derived]): which register each opcode may write; every instruction writes at most one. -/
def Obligations.RegistersWritten : Prop :=
  ∀ (i : Instr) (s t : State), exec i s = .next t → ∀ k, t.x k ≠ s.x k →
    match i with
    | .cmov a _ c => k = a ∧ s.x c ≠ 0#32
    | .load a _ _ => k = a
    | .store _ _ _ => False
    | .add a _ _ => k = a
    | .mul a _ _ => k = a
    | .div a _ _ => k = a
    | .nand a _ _ => k = a
    | .halt => False
    | .map b _ => k = b
    | .unmap _ => False
    | .out _ => False
    | .inp c => k = c
    | .loadp _ _ => False
    | .li a _ => k = a

/-- What R22 (the spec's own inference, marked [derived]) means by reading: a register an instruction does not read reaches nothing but itself. -/
def Obligations.UnreadRegistersDoNotMatter : Prop :=
  ∀ (i : Instr) (s t : State) (k : RegIdx) (v : Word), k ∉ readRegs i → exec i s = .next t →
    ∃ t', exec i (s.writeReg k v) = .next t' ∧ OnlyRegChanges k t t'

/-- R29, R52, R67: an instruction that neither stores, maps, unmaps nor loads a program leaves every word of memory as it was. -/
def Obligations.MemoryUntouchedByOtherInstructions : Prop :=
  ∀ (i : Instr) (s t : State), exec i s = .next t →
    (∀ a b c, i ≠ .store a b c) → (∀ b c, i ≠ .map b c) → (∀ c, i ≠ .unmap c) → (∀ b c, i ≠ .loadp b c) →
    (∀ id o, t.wordAt id o = s.wordAt id o) ∧ t.a0 = s.a0 ∧ t.mgr = s.mgr

/-- R31: A0 changes only by STORE, one word and never its length, and as a whole by LOADP. -/
def Obligations.ActiveSegmentChanges : Prop :=
  ∀ s t : State, step s = .next t →
    t.a0 = s.a0 ∨
    (∃ a b c, s.nextInstr (.store a b c) ∧ s.x a = 0#32 ∧ t.a0.len = s.a0.len ∧
      ∀ o, t.a0.read o = if o = s.x b then some (s.x c) else s.a0.read o) ∨
    (∃ b c, s.nextInstr (.loadp b c) ∧ s.x b ≠ 0#32 ∧ s.mgr.segment (s.x b) = some t.a0)

/-- R33 (I5 and I6 are the spec's own inferences, marked [derived]): every step keeps the invariants I1 to I6 of the segment manager (and the model's canonical form of
memory, log entry 2). -/
def Obligations.StepKeepsInvariant : Prop :=
  ∀ s t : State, s.Inv → step s = .next t →
    t.Inv ∧
    (∀ id : Word, t.mgr.isMapped id = true ↔
      id.toNat < t.mgr.nextUnusedId ∧ t.mgr.mappedBitmap id.toNat = true) ∧
    (∀ (id : Word) (g g' : Segment), s.mgr.segment id = some g → t.mgr.segment id = some g' → g'.len = g.len)

/-- R33, whose invariants "every rule of 20_memory.md preserves" (I5 and I6 are the spec's own inferences, marked [derived]): each
operation of the segment manager that changes it keeps I1 to I6. That `free()` leaves `next_unused_id` at 1 is log entry 16. -/
def Obligations.ManagerOperationsKeepInvariant : Prop :=
  SegMgr.new.Inv ∧
  ∀ m : SegMgr, m.Inv →
    (∀ (m' : SegMgr), ((∃ al size id, m.map al size = .ok (id, m')) ∨ (∃ id, m.unmap id = .ok m') ∨
        (∃ id o v, m.set id o v = .ok m')) →
      m'.Inv ∧
      (∀ id : Word, m'.isMapped id = true ↔ id.toNat < m'.nextUnusedId ∧ m'.mappedBitmap id.toNat = true) ∧
      ∀ (j : Word) (g g' : Segment), m.segment j = some g → m'.segment j = some g' → g'.len = g.len) ∧
    (m.free.Inv ∧ m.free.freeIds = [] ∧ ∀ id : Word, m.free.segment id = none ∧ m.free.mappedBitmap id.toNat = false)

/-- The invariant holds after every launch, and at the reset constant (R44; the constant's empty A0 is log entry 9). -/
def Obligations.InvariantHoldsAtReset : Prop :=
  State.reset.Inv ∧
  ∀ (cfg : LaunchConfig) (image : List Word) (s : State), State.launchWords cfg image = some s → s.Inv

/-- The canonical form: under the invariant, memories that read the same are the same data (log entry 2). -/
def Obligations.EqualMemoriesAreEqualData : Prop :=
  ∀ s t : State, Memory.wf s → Memory.wf t →
    (∀ id, (s.segmentAt id).map Segment.len = (t.segmentAt id).map Segment.len) →
    (∀ id o, s.wordAt id o = t.wordAt id o) →
    (∀ e ∈ s.mgr.segments, 1 ≤ e.1 ∧ e.1 < 2 ^ 32) → (∀ e ∈ t.mgr.segments, 1 ≤ e.1 ∧ e.1 < 2 ^ 32) →
    s.a0 = t.a0 ∧ s.mgr.segments = t.mgr.segments
end

