-- ==== Sys2Proof/Laws/Encoding.lean ====
section
/-! SUPPORT. What field extraction, packing and decoding do, said once. -/

namespace Sys2Proof

/-- A field inside the 64-bit range is the plain quotient and remainder (R96). -/
theorem field_eq (w : Word) {width lsb : Nat} (h : width + lsb ≤ 64) :
    field w width lsb = w.toNat / 2 ^ lsb % 2 ^ width := by
  simp [field, extractUnsigned, show width ≤ 64 by omega, h]

theorem regField_val (w : Word) {lsb : Nat} (h : 3 + lsb ≤ 64) : (regField w lsb).val = w.toNat / 2 ^ lsb % 8 := by
  simp [regField, Fin.ofNat, field_eq w h]

/-- The opcode field is the top quotient of the word. -/
theorem opcode_field (w : Word) : field w 4 28 = w.toNat / 2 ^ 28 := by
  have := w.isLt
  rw [field_eq w (by decide)]
  omega

theorem packR_toNat {op : Nat} (h : op ≤ 15) (a b c : RegIdx) :
    (packR op a b c).toNat = op * 2 ^ 28 + a.val * 2 ^ 6 + b.val * 2 ^ 3 + c.val := by
  simp only [packR, BitVec.toNat_ofNat]
  omega

theorem packI_toNat {imm : Nat} (h : imm < 0x2000000) (a : RegIdx) :
    (packI a imm).toNat = 13 * 2 ^ 28 + a.val * 2 ^ 25 + imm := by
  simp only [packI, BitVec.toNat_ofNat]
  omega

/-- The fields of a packed format R word are its operands. -/
theorem packR_fields {op : Nat} (h : op ≤ 15) (a b c : RegIdx) :
    field (packR op a b c) 4 28 = op ∧ fieldA (packR op a b c) = a ∧ fieldB (packR op a b c) = b ∧
      fieldC (packR op a b c) = c := by
  refine ⟨?_, Fin.ext ?_, Fin.ext ?_, Fin.ext ?_⟩
  · rw [field_eq _ (by decide), packR_toNat h]
    omega
  · rw [fieldA, regField_val _ (by decide), packR_toNat h]
    omega
  · rw [fieldB, regField_val _ (by decide), packR_toNat h]
    omega
  · rw [fieldC, regField_val _ (by decide), packR_toNat h]
    omega

/-- The fields of a packed format I word are its operands. -/
theorem packI_fields {imm : Nat} (h : imm < 0x2000000) (a : RegIdx) :
    field (packI a imm) 4 28 = 13 ∧ regField (packI a imm) 25 = a ∧ field (packI a imm) 25 0 = imm := by
  refine ⟨?_, Fin.ext ?_, ?_⟩
  · rw [field_eq _ (by decide), packI_toNat h]
    omega
  · rw [regField_val _ (by decide), packI_toNat h]
    omega
  · rw [field_eq _ (by decide), packI_toNat h]
    omega

/-- The bytes of a word give the word back (R50). -/
theorem wordOfBytes_of_word (w : Word) :
    decodeBytes (bytesOfWord w) = (decode w).map fun i => (i, []) := by
  have hw : wordOfBytes (BitVec.ofNat 8 (w.toNat / 2 ^ 24)) (BitVec.ofNat 8 (w.toNat / 2 ^ 16))
      (BitVec.ofNat 8 (w.toNat / 2 ^ 8)) (BitVec.ofNat 8 w.toNat) = w := by
    apply BitVec.eq_of_toNat_eq
    have := w.isLt
    simp only [wordOfBytes, BitVec.toNat_ofNat]
    omega
  simp only [bytesOfWord, decodeBytes, hw]

/-- Outside the opcodes 0 to 13 the decoder rejects. -/
theorem decode_invalid {w : Word} (h : 14 ≤ w.toNat / 2 ^ 28) : decode w = .error (.invalidOpcode (w.toNat / 2 ^ 28)) := by
  have ho := opcode_field w
  unfold decode
  split <;> first | omega | rw [ho]

/-- What the decoder rejects is an opcode above 13. -/
theorem decode_error {w : Word} {e : DecodeError} (h : decode w = .error e) :
    14 ≤ w.toNat / 2 ^ 28 ∧ e = .invalidOpcode (w.toNat / 2 ^ 28) := by
  have ho := opcode_field w
  have h14 : 14 ≤ w.toNat / 2 ^ 28 := by
    by_contra hlt
    have hle : field w 4 28 ≤ 13 := by omega
    unfold decode at h
    interval_cases field w 4 28 <;> cases h
  rw [decode_invalid h14] at h
  exact ⟨h14, (Except.error.inj h).symm⟩

end Sys2Proof
end

