-- ==== Sys2Proof/Laws/State.lean ====
section
/-! SUPPORT. One lemma per field per update of State, so that no proof unfolds a record update. -/

namespace Sys2Proof.Machine

variable (s : State)

/-! ## Register write -/

@[simp] theorem State.writeReg_pc (i : RegIdx) (v : Word) : (s.writeReg i v).pc = s.pc := rfl
@[simp] theorem State.writeReg_run (i : RegIdx) (v : Word) : (s.writeReg i v).run = s.run := rfl
@[simp] theorem State.writeReg_a0 (i : RegIdx) (v : Word) : (s.writeReg i v).a0 = s.a0 := rfl
@[simp] theorem State.writeReg_mgr (i : RegIdx) (v : Word) : (s.writeReg i v).mgr = s.mgr := rfl
@[simp] theorem State.writeReg_output (i : RegIdx) (v : Word) : (s.writeReg i v).output = s.output := rfl
@[simp] theorem State.writeReg_input (i : RegIdx) (v : Word) : (s.writeReg i v).input = s.input := rfl
@[simp] theorem State.writeReg_allocDenied (i : RegIdx) (v : Word) :
    (s.writeReg i v).allocDenied = s.allocDenied := rfl

theorem State.writeReg_x (i k : RegIdx) (v : Word) : (s.writeReg i v).x k = if k = i then v else s.x k := by
  simp only [State.writeReg, State.x, Fin.getElem_fin, Vector.getElem_set, Fin.ext_iff, eq_comm]

@[simp] theorem State.writeReg_x_self (i : RegIdx) (v : Word) : (s.writeReg i v).x i = v := by
  simp [State.writeReg_x]

theorem State.writeReg_x_ne (i k : RegIdx) (v : Word) (h : k ≠ i) : (s.writeReg i v).x k = s.x k := by
  simp [State.writeReg_x, h]

/-- Two register files that read the same are the same. -/
theorem State.regs_ext {s t : State} (h : ∀ k, s.x k = t.x k) : s.regs = t.regs := by
  apply Vector.ext
  intro i hi
  exact h ⟨i, hi⟩

/-- Writing back what a register holds changes nothing. -/
theorem State.writeReg_self (i : RegIdx) : s.writeReg i (s.x i) = s := by
  have h : (s.writeReg i (s.x i)).regs = s.regs := State.regs_ext fun k => by
    rw [State.writeReg_x]
    split_ifs with hk
    · rw [hk]
    · rfl
  cases s
  simp only [State.writeReg] at h ⊢
  rw [h]

/-! ## Taking a fault -/

@[simp] theorem State.raise_x (r : Fault) (k : RegIdx) : (s.raise r).x k = s.x k := rfl
@[simp] theorem State.raise_regs (r : Fault) : (s.raise r).regs = s.regs := rfl
@[simp] theorem State.raise_pc (r : Fault) : (s.raise r).pc = s.pc := rfl
@[simp] theorem State.raise_run (r : Fault) : (s.raise r).run = .faulted r := rfl
@[simp] theorem State.raise_a0 (r : Fault) : (s.raise r).a0 = s.a0 := rfl
@[simp] theorem State.raise_mgr (r : Fault) : (s.raise r).mgr = s.mgr := rfl
@[simp] theorem State.raise_output (r : Fault) : (s.raise r).output = s.output := rfl
@[simp] theorem State.raise_input (r : Fault) : (s.raise r).input = s.input := rfl
@[simp] theorem State.raise_allocDenied (r : Fault) : (s.raise r).allocDenied = s.allocDenied := rfl

/-! ## Halt, jump, replace, wait -/

@[simp] theorem State.halt_x (k : RegIdx) : s.halt.x k = s.x k := rfl
@[simp] theorem State.halt_pc : s.halt.pc = s.pc := rfl
@[simp] theorem State.halt_run : s.halt.run = .halted := rfl
@[simp] theorem State.halt_a0 : s.halt.a0 = s.a0 := rfl
@[simp] theorem State.halt_mgr : s.halt.mgr = s.mgr := rfl
@[simp] theorem State.halt_output : s.halt.output = s.output := rfl
@[simp] theorem State.halt_input : s.halt.input = s.input := rfl
@[simp] theorem State.halt_allocDenied : s.halt.allocDenied = s.allocDenied := rfl

@[simp] theorem State.jump_x (t : Word) (k : RegIdx) : (s.jump t).x k = s.x k := rfl
@[simp] theorem State.jump_pc (t : Word) : (s.jump t).pc = t := rfl
@[simp] theorem State.jump_run (t : Word) : (s.jump t).run = s.run := rfl
@[simp] theorem State.jump_a0 (t : Word) : (s.jump t).a0 = s.a0 := rfl
@[simp] theorem State.jump_mgr (t : Word) : (s.jump t).mgr = s.mgr := rfl
@[simp] theorem State.jump_output (t : Word) : (s.jump t).output = s.output := rfl
@[simp] theorem State.jump_input (t : Word) : (s.jump t).input = s.input := rfl
@[simp] theorem State.jump_allocDenied (t : Word) : (s.jump t).allocDenied = s.allocDenied := rfl

@[simp] theorem State.replaceA0_x (g : Segment) (k : RegIdx) : (s.replaceA0 g).x k = s.x k := rfl
@[simp] theorem State.replaceA0_pc (g : Segment) : (s.replaceA0 g).pc = s.pc := rfl
@[simp] theorem State.replaceA0_run (g : Segment) : (s.replaceA0 g).run = s.run := rfl
@[simp] theorem State.replaceA0_a0 (g : Segment) : (s.replaceA0 g).a0 = g := rfl
@[simp] theorem State.replaceA0_mgr (g : Segment) : (s.replaceA0 g).mgr = s.mgr := rfl
@[simp] theorem State.replaceA0_output (g : Segment) : (s.replaceA0 g).output = s.output := rfl
@[simp] theorem State.replaceA0_input (g : Segment) : (s.replaceA0 g).input = s.input := rfl
@[simp] theorem State.replaceA0_allocDenied (g : Segment) : (s.replaceA0 g).allocDenied = s.allocDenied := rfl

@[simp] theorem State.holdCycle_x (k : RegIdx) : s.holdCycle.x k = s.x k := rfl
@[simp] theorem State.holdCycle_pc : s.holdCycle.pc = s.pc - 1 := rfl
@[simp] theorem State.holdCycle_run : s.holdCycle.run = s.run := rfl
@[simp] theorem State.holdCycle_a0 : s.holdCycle.a0 = s.a0 := rfl
@[simp] theorem State.holdCycle_mgr : s.holdCycle.mgr = s.mgr := rfl
@[simp] theorem State.holdCycle_output : s.holdCycle.output = s.output := rfl
@[simp] theorem State.holdCycle_input : s.holdCycle.input = s.input := rfl
@[simp] theorem State.holdCycle_allocDenied : s.holdCycle.allocDenied = s.allocDenied := rfl

/-! ## The host's answer -/

@[simp] theorem State.respond_x (r : InResponse) (k : RegIdx) : (s.respond r).x k = s.x k := rfl
@[simp] theorem State.respond_pc (r : InResponse) : (s.respond r).pc = s.pc := rfl
@[simp] theorem State.respond_run (r : InResponse) : (s.respond r).run = s.run := rfl
@[simp] theorem State.respond_a0 (r : InResponse) : (s.respond r).a0 = s.a0 := rfl
@[simp] theorem State.respond_mgr (r : InResponse) : (s.respond r).mgr = s.mgr := rfl
@[simp] theorem State.respond_output (r : InResponse) : (s.respond r).output = s.output := rfl
@[simp] theorem State.respond_input (r : InResponse) : (s.respond r).input = s.input ++ [r] := rfl

/-! ## Ending an instruction -/

@[simp] theorem State.settle_ok (t : State) : s.settle (.ok t) = .next t := rfl
@[simp] theorem State.settle_error (r : Fault) : s.settle (.error r) = .next (s.raise r) := rfl

/-- Everything `settle` can answer. -/
theorem State.settle_next {s t : State} {e : Except Fault State} (h : s.settle e = .next t) :
    e = .ok t ∨ ∃ r, e = .error r ∧ t = s.raise r := by
  cases e with
  | ok u => exact .inl (by simpa using h)
  | error r => exact .inr ⟨r, rfl, by simpa using h.symm⟩

end Sys2Proof.Machine
end

