-- ==== Sys2Proof/Laws/Memory.lean ====
section
/-! SUPPORT. What the sparse maps, segments, the segment manager and segment access can do, said once, and that every
operation on memory keeps its canonical form. -/

namespace Sys2Proof.Machine

/-! ## Sparse maps -/

section Assoc
variable {α : Type}

@[simp] theorem Assoc.lookup_nil (k : Nat) : Assoc.lookup k ([] : List (Nat × α)) = none := rfl

theorem Assoc.lookup_insert (k j : Nat) (v : α) (l : List (Nat × α)) :
    Assoc.lookup j (Assoc.insert k v l) = if j = k then some v else Assoc.lookup j l := by
  induction l with
  | nil => simp [Assoc.insert, Assoc.lookup]
  | cons e rest ih =>
    obtain ⟨k', v'⟩ := e
    simp only [Assoc.insert]
    split_ifs <;> simp only [Assoc.lookup, ih] <;> split_ifs <;> first | rfl | omega

theorem Assoc.lookup_erase (k j : Nat) (l : List (Nat × α)) :
    Assoc.lookup j (Assoc.erase k l) = if j = k then none else Assoc.lookup j l := by
  induction l with
  | nil => simp [Assoc.erase]
  | cons e rest ih =>
    obtain ⟨k', v'⟩ := e
    simp only [Assoc.erase] at ih
    by_cases hk : k' = k
    · subst hk
      simp only [Assoc.erase, List.filter_cons, bne_self_eq_false, Bool.false_eq_true, if_false, ih, Assoc.lookup]
      split_ifs <;> rfl
    · have hb : (k' != k) = true := by simpa using hk
      simp only [Assoc.erase, List.filter_cons, hb, if_true, Assoc.lookup, ih]
      split_ifs <;> first | rfl | omega

theorem Assoc.mem_of_lookup {k : Nat} {v : α} {l : List (Nat × α)} (h : Assoc.lookup k l = some v) : (k, v) ∈ l := by
  induction l with
  | nil => simp at h
  | cons e rest ih =>
    obtain ⟨k', v'⟩ := e
    simp only [Assoc.lookup] at h
    split_ifs at h with hk
    · simp_all
    · exact List.mem_cons_of_mem _ (ih h)

/-- In canonical form an entry is what lookup gives. -/
theorem Assoc.lookup_of_mem {k : Nat} {v : α} {l : List (Nat × α)} (hr : Assoc.Rising l) (h : (k, v) ∈ l) :
    Assoc.lookup k l = some v := by
  induction l with
  | nil => simp at h
  | cons e rest ih =>
    obtain ⟨k', v'⟩ := e
    simp only [Assoc.Rising, List.map_cons, List.pairwise_cons] at hr
    rcases List.mem_cons.1 h with h' | h'
    · simp_all [Assoc.lookup]
    · have : k' < k := hr.1 k (List.mem_map_of_mem h')
      simp only [Assoc.lookup, if_neg (by omega : ¬ k = k')]
      exact ih hr.2 h'

theorem Assoc.mem_insert {e : Nat × α} {k : Nat} {v : α} {l : List (Nat × α)} (h : e ∈ Assoc.insert k v l) :
    e = (k, v) ∨ e ∈ l := by
  induction l with
  | nil => simpa [Assoc.insert] using h
  | cons e' rest ih =>
    obtain ⟨k', v'⟩ := e'
    simp only [Assoc.insert] at h
    split_ifs at h
    · simpa using h
    · rcases List.mem_cons.1 h with h | h <;> simp [h]
    · rcases List.mem_cons.1 h with h | h
      · simp [h]
      · rcases ih h with h | h <;> simp [h]

theorem Assoc.mem_erase {e : Nat × α} {k : Nat} {l : List (Nat × α)} : e ∈ Assoc.erase k l ↔ e ∈ l ∧ e.1 ≠ k := by
  simp [Assoc.erase]

theorem Assoc.insert_rising {k : Nat} {v : α} {l : List (Nat × α)} (hr : Assoc.Rising l) :
    Assoc.Rising (Assoc.insert k v l) := by
  induction l with
  | nil => simp [Assoc.insert, Assoc.Rising]
  | cons e rest ih =>
    obtain ⟨k', v'⟩ := e
    simp only [Assoc.Rising, List.map_cons, List.pairwise_cons] at hr ih
    simp only [Assoc.insert]
    split_ifs with h1 h2
    · simp only [Assoc.Rising, List.map_cons, List.pairwise_cons]
      refine ⟨fun j hj => ?_, hr⟩
      rcases List.mem_cons.1 hj with hj | hj
      · omega
      · have := hr.1 j hj
        omega
    · subst h2
      simpa only [Assoc.Rising, List.map_cons, List.pairwise_cons] using hr
    · simp only [Assoc.Rising, List.map_cons, List.pairwise_cons]
      refine ⟨fun j hj => ?_, ih hr.2⟩
      obtain ⟨e, he, rfl⟩ := List.mem_map.1 hj
      rcases Assoc.mem_insert he with rfl | he
      · dsimp only
        omega
      · exact hr.1 _ (List.mem_map_of_mem he)

theorem Assoc.erase_rising {k : Nat} {l : List (Nat × α)} (hr : Assoc.Rising l) : Assoc.Rising (Assoc.erase k l) :=
  hr.sublist (List.Sublist.map Prod.fst List.filter_sublist)

/-- Two sparse maps in canonical form that read the same are the same list. -/
theorem Assoc.ext {l m : List (Nat × α)} (hl : Assoc.Rising l) (hm : Assoc.Rising m)
    (h : ∀ k, Assoc.lookup k l = Assoc.lookup k m) : l = m := by
  have strict : ∀ {n : List (Nat × α)}, Assoc.Rising n → n.Pairwise fun a b => a.1 < b.1 :=
    fun hn => List.pairwise_map.1 hn
  have mem : ∀ {n n' : List (Nat × α)}, Assoc.Rising n → (∀ k, Assoc.lookup k n = Assoc.lookup k n') →
      ∀ e ∈ n, e ∈ n' := fun hn hk e he =>
    Assoc.mem_of_lookup ((hk e.1).symm.trans (Assoc.lookup_of_mem hn he))
  refine List.Perm.eq_of_pairwise (le := fun a b : Nat × α => a.1 < b.1) (fun a b _ _ hab hba => ?_) (strict hl) (strict hm) ?_
  · exact absurd hab (Nat.lt_asymm hba)
  · refine (List.perm_ext_iff_of_nodup ?_ ?_).2 fun e => ⟨mem hl h e, mem hm (fun k => (h k).symm) e⟩
    · exact (strict hl).imp fun hab he => by subst he; exact Nat.lt_irrefl _ hab
    · exact (strict hm).imp fun hab he => by subst he; exact Nat.lt_irrefl _ hab

end Assoc

/-! ## Segments -/

theorem Segment.lookup_putCell (cells : List (Nat × Word)) (o j : Nat) (v : Word) :
    (Assoc.lookup j (Segment.putCell cells o v)).getD Segment.unlisted =
      if j = o then v else (Assoc.lookup j cells).getD Segment.unlisted := by
  unfold Segment.putCell
  split_ifs with h1 h2 h2
  · simp [Assoc.lookup_erase, h2, h1]
  · simp [Assoc.lookup_erase, h2]
  · simp [Assoc.lookup_insert, h2]
  · simp [Assoc.lookup_insert, h2]

theorem Segment.read_eq_none {g : Segment} {o : Word} : g.read o = none ↔ g.len ≤ o := by
  unfold Segment.read
  split_ifs with h <;> simp [BitVec.not_lt.symm, h]

theorem Segment.read_isSome {g : Segment} {o : Word} : (g.read o).isSome ↔ o < g.len := by
  unfold Segment.read
  split_ifs with h <;> simp [h]

theorem Segment.write_eq_none {g : Segment} {o v : Word} : g.write o v = none ↔ g.len ≤ o := by
  unfold Segment.write
  split_ifs with h <;> simp [BitVec.not_lt.symm, h]

/-- Everything a successful write does. -/
theorem Segment.write_spec {g g' : Segment} {o v : Word} (h : g.write o v = some g') :
    o < g.len ∧ g'.len = g.len ∧ ∀ j, g'.read j = if j = o then some v else g.read j := by
  unfold Segment.write at h
  split_ifs at h with ho
  obtain rfl := Option.some.inj h
  refine ⟨ho, rfl, fun j => ?_⟩
  simp only [Segment.read, Segment.lookup_putCell, BitVec.toNat_inj]
  split_ifs <;> simp_all

/-- A write to an offset below the length succeeds. -/
theorem Segment.write_of_lt {g : Segment} {o : Word} (v : Word) (h : o < g.len) : ∃ g', g.write o v = some g' := by
  simp [Segment.write, h]

theorem Segment.putCell_wf {g : Segment} {o v : Word} (hg : g.wf) (ho : o < g.len) :
    Segment.wf { g with cells := Segment.putCell g.cells o.toNat v } := by
  obtain ⟨hr, hc⟩ := hg
  unfold Segment.putCell
  split_ifs with hv
  · exact ⟨Assoc.erase_rising hr, fun e he => hc e (Assoc.mem_erase.1 he).1⟩
  · refine ⟨Assoc.insert_rising hr, fun e he => ?_⟩
    rcases Assoc.mem_insert he with rfl | he
    · exact ⟨BitVec.lt_def.1 ho, hv⟩
    · exact hc e he

theorem Segment.write_wf {g g' : Segment} {o v : Word} (hg : g.wf) (h : g.write o v = some g') : g'.wf := by
  unfold Segment.write at h
  split_ifs at h with ho
  obtain rfl := Option.some.inj h
  exact Segment.putCell_wf hg ho

theorem Segment.zeros_wf (size : Word) : (Segment.zeros size).wf := by
  simp [Segment.wf, Segment.zeros, Assoc.Rising]

theorem Segment.empty_wf : Segment.empty.wf := Segment.zeros_wf 0

theorem Segment.zeros_read (size o : Word) : (Segment.zeros size).read o = if o < size then some 0#32 else none := rfl

/-- Two segments in canonical form that read the same are the same data. -/
theorem Segment.ext_read {g h : Segment} (hg : g.wf) (hh : h.wf) (hl : g.len = h.len) (hr : ∀ o, g.read o = h.read o) :
    g = h := by
  have listed : ∀ {g h : Segment} {k : Nat} {v : Word}, g.wf → g.len = h.len → (∀ o, g.read o = h.read o) →
      Assoc.lookup k g.cells = some v → Assoc.lookup k h.cells = some v := by
    intro g h k v hg hl hr hv
    obtain ⟨hk, hne⟩ : k < g.len.toNat ∧ v ≠ 0#32 := hg.2 _ (Assoc.mem_of_lookup hv)
    have hk' : (BitVec.ofNat 32 k).toNat = k := by
      have := g.len.isLt
      simp only [BitVec.toNat_ofNat]
      omega
    have hro := hr (BitVec.ofNat 32 k)
    simp only [Segment.read, BitVec.lt_def, hk', ← hl, if_pos hk, hv, Option.getD_some, Option.some.injEq] at hro
    cases hw : Assoc.lookup k h.cells with
    | none => exact absurd (by simpa [hw, Segment.unlisted] using hro) hne
    | some w => simpa [hw] using hro.symm
  have hc : g.cells = h.cells := by
    refine Assoc.ext hg.1 hh.1 fun k => ?_
    cases h1 : Assoc.lookup k g.cells with
    | some v => exact (listed hg hl hr h1).symm
    | none =>
      cases h2 : Assoc.lookup k h.cells with
      | none => rfl
      | some v => exact absurd ((listed hh hl.symm (fun o => (hr o).symm) h2).symm.trans h1) (by simp)
  cases g
  cases h
  simp_all

theorem Segment.cellsFrom_mem {ws : List Word} {k : Nat} {e : Nat × Word} (h : e ∈ Segment.cellsFrom k ws) :
    k ≤ e.1 ∧ e.1 < k + ws.length ∧ e.2 ≠ 0#32 := by
  induction ws generalizing k with
  | nil => simp [Segment.cellsFrom] at h
  | cons w rest ih =>
    simp only [Segment.cellsFrom] at h
    simp only [List.length_cons]
    split_ifs at h with hw
    · obtain ⟨h1, h2, h3⟩ := ih h
      exact ⟨by omega, by omega, h3⟩
    · rcases List.mem_cons.1 h with rfl | h
      · exact ⟨Nat.le_refl _, by simp only; omega, hw⟩
      · obtain ⟨h1, h2, h3⟩ := ih h
        exact ⟨by omega, by omega, h3⟩

theorem Segment.cellsFrom_rising (ws : List Word) (k : Nat) : Assoc.Rising (Segment.cellsFrom k ws) := by
  induction ws generalizing k with
  | nil => simp [Segment.cellsFrom, Assoc.Rising]
  | cons w rest ih =>
    simp only [Segment.cellsFrom]
    split_ifs
    · exact ih (k + 1)
    · simp only [Assoc.Rising, List.map_cons, List.pairwise_cons]
      refine ⟨fun j hj => ?_, ih (k + 1)⟩
      obtain ⟨e, he, rfl⟩ := List.mem_map.1 hj
      have := (Segment.cellsFrom_mem he).1
      omega

theorem Segment.cellsFrom_lookup (ws : List Word) (k j : Nat) :
    (Assoc.lookup (k + j) (Segment.cellsFrom k ws)).getD Segment.unlisted = (ws[j]?).getD Segment.unlisted := by
  induction ws generalizing k j with
  | nil => simp [Segment.cellsFrom]
  | cons w rest ih =>
    cases j with
    | zero =>
      simp only [Segment.cellsFrom]
      split_ifs with hw
      · have hn : Assoc.lookup k (Segment.cellsFrom (k + 1) rest) = none := by
          by_contra hne
          obtain ⟨v, hv⟩ := Option.ne_none_iff_exists'.1 hne
          have := (Segment.cellsFrom_mem (Assoc.mem_of_lookup hv)).1
          simp only at this
          omega
        simp [hn, hw]
      · simp [Assoc.lookup]
    | succ j =>
      have hij := ih (k + 1) j
      rw [show k + 1 + j = k + (j + 1) by omega] at hij
      simp only [Segment.cellsFrom, List.getElem?_cons_succ]
      split_ifs
      · exact hij
      · simpa [Assoc.lookup] using hij

theorem Segment.ofWords_wf {ws : List Word} (h : ws.length < 2 ^ 32) : (Segment.ofWords ws).wf := by
  refine ⟨Segment.cellsFrom_rising ws 0, fun e he => ?_⟩
  obtain ⟨-, h2, h3⟩ := Segment.cellsFrom_mem he
  simp only [Segment.ofWords, BitVec.toNat_ofNat, Nat.mod_eq_of_lt h]
  exact ⟨by omega, h3⟩

/-- Word k of an image is the word at offset k. -/
theorem Segment.ofWords_read {ws : List Word} (h : ws.length < 2 ^ 32) (o : Word) :
    (Segment.ofWords ws).read o = ws[o.toNat]? := by
  have hl := Segment.cellsFrom_lookup ws 0 o.toNat
  simp only [Segment.read, Segment.ofWords, BitVec.lt_def, BitVec.toNat_ofNat, Nat.mod_eq_of_lt h]
  split_ifs with ho
  · rw [Nat.zero_add] at hl
    rw [hl, List.getElem?_eq_getElem ho]
    simp
  · simp [Nat.not_lt.1 ho]

/-! ## The segment manager -/

@[simp] theorem SegMgr.setSegment_nextUnusedId (m : SegMgr) (id : Word) (g : Segment) :
    (m.setSegment id g).nextUnusedId = m.nextUnusedId := rfl
@[simp] theorem SegMgr.setSegment_freeIds (m : SegMgr) (id : Word) (g : Segment) :
    (m.setSegment id g).freeIds = m.freeIds := rfl

theorem SegMgr.setSegment_segment (m : SegMgr) (id j : Word) (g : Segment) :
    (m.setSegment id g).segment j = if j = id then some g else m.segment j := by
  simp only [SegMgr.segment, SegMgr.setSegment, Assoc.lookup_insert, BitVec.toNat_inj]

theorem SegMgr.isMapped_iff {m : SegMgr} {id : Word} : m.isMapped id = true ↔ ∃ g, m.segment id = some g := by
  simp [SegMgr.isMapped, Option.isSome_iff_exists]

theorem SegMgr.not_isMapped_iff {m : SegMgr} {id : Word} : m.isMapped id = false ↔ m.segment id = none := by
  simp [SegMgr.isMapped]

/-- Everything a successful `map` does. -/
theorem SegMgr.map_spec {m m' : SegMgr} {allowed : Bool} {size id : Word} (h : m.map allowed size = .ok (id, m')) :
    allowed = true ∧
    ((∃ rest, m.freeIds = id :: rest ∧ m'.freeIds = rest ∧ m'.nextUnusedId = m.nextUnusedId) ∨
      (m.freeIds = [] ∧ m.nextUnusedId < Config.idLimit ∧ id.toNat = m.nextUnusedId ∧ m'.freeIds = [] ∧
        m'.nextUnusedId = m.nextUnusedId + 1)) ∧
    m'.segments = Assoc.insert id.toNat (Segment.zeros size) m.segments := by
  unfold SegMgr.map at h
  by_cases ha : allowed = true
  case neg => simp [ha] at h
  rw [if_pos ha] at h
  split at h
  · rename_i i rest hf
    obtain ⟨rfl, rfl⟩ := Prod.mk.inj (Except.ok.inj h)
    exact ⟨ha, .inl ⟨rest, hf, rfl, rfl⟩, rfl⟩
  · rename_i hf
    by_cases hn : m.nextUnusedId < Config.idLimit
    · rw [if_pos hn] at h
      obtain ⟨rfl, rfl⟩ := Prod.mk.inj (Except.ok.inj h)
      refine ⟨ha, .inr ⟨hf, hn, ?_, hf, rfl⟩, rfl⟩
      simpa [Config.idLimit] using hn
    · rw [if_neg hn] at h
      simp at h

/-- `map` leaves every other id's segment alone. -/
theorem SegMgr.map_segment {m m' : SegMgr} {allowed : Bool} {size id : Word} (h : m.map allowed size = .ok (id, m'))
    (j : Word) : m'.segment j = if j = id then some (Segment.zeros size) else m.segment j := by
  simp only [SegMgr.segment, (SegMgr.map_spec h).2.2, Assoc.lookup_insert, BitVec.toNat_inj]

/-- When `map` fails. -/
theorem SegMgr.map_error {m : SegMgr} {allowed : Bool} {size : Word} {r : Fault} (h : m.map allowed size = .error r) :
    r = .resourceExhausted ∧ (allowed = false ∨ m.freeIds = [] ∧ ¬ m.nextUnusedId < Config.idLimit) := by
  unfold SegMgr.map at h
  by_cases ha : allowed = true
  · rw [if_pos ha] at h
    split at h
    · simp at h
    · rename_i hf
      by_cases hn : m.nextUnusedId < Config.idLimit
      · simp [hn] at h
      · rw [if_neg hn] at h
        exact ⟨(Except.error.inj h).symm, .inr ⟨hf, hn⟩⟩
  · rw [if_neg ha] at h
    exact ⟨(Except.error.inj h).symm, .inl (by simpa using ha)⟩

/-- Everything a successful `unmap` does. -/
theorem SegMgr.unmap_spec {m m' : SegMgr} {id : Word} (h : m.unmap id = .ok m') :
    id ≠ 0#32 ∧ m.isMapped id = true ∧ m'.nextUnusedId = m.nextUnusedId ∧ m'.freeIds = id :: m.freeIds ∧
      m'.segments = Assoc.erase id.toNat m.segments := by
  unfold SegMgr.unmap at h
  split_ifs at h with h0
  split at h
  · simp at h
  · rename_i g hg
    obtain rfl := Except.ok.inj h
    exact ⟨h0, SegMgr.isMapped_iff.2 ⟨g, hg⟩, rfl, rfl, rfl⟩

/-- `unmap` leaves every other id's segment alone. -/
theorem SegMgr.unmap_segment {m m' : SegMgr} {id : Word} (h : m.unmap id = .ok m') (j : Word) :
    m'.segment j = if j = id then none else m.segment j := by
  simp only [SegMgr.segment, (SegMgr.unmap_spec h).2.2.2.2, Assoc.lookup_erase, BitVec.toNat_inj]

/-- Everything a successful `set` does. -/
theorem SegMgr.set_spec {m m' : SegMgr} {id o v : Word} (h : m.set id o v = .ok m') :
    id ≠ 0#32 ∧ ∃ g g', m.segment id = some g ∧ g.write o v = some g' ∧ m' = m.setSegment id g' := by
  unfold SegMgr.set at h
  split_ifs at h with h0
  split at h
  · simp at h
  · rename_i g hg
    split at h
    · simp at h
    · rename_i g' hw
      exact ⟨h0, g, g', hg, hw, (Except.ok.inj h).symm⟩

/-- Everything a successful `get` does. -/
theorem SegMgr.get_spec {m : SegMgr} {id o v : Word} (h : m.get id o = .ok v) :
    id ≠ 0#32 ∧ ∃ g, m.segment id = some g ∧ g.read o = some v := by
  unfold SegMgr.get at h
  split_ifs at h with h0
  split at h
  · simp at h
  · rename_i g hg
    split at h
    · simp at h
    · rename_i w hr
      exact ⟨h0, g, hg, hr.trans (congrArg some (Except.ok.inj h))⟩

/-- Everything a successful `duplicate` does. -/
theorem SegMgr.duplicate_spec {m : SegMgr} {id : Word} {g : Segment} (h : m.duplicate id = .ok g) :
    id ≠ 0#32 ∧ m.segment id = some g := by
  unfold SegMgr.duplicate at h
  split_ifs at h with h0
  split at h
  · simp at h
  · rename_i g' hg
    exact ⟨h0, hg.trans (congrArg some (Except.ok.inj h))⟩

/-! ## Segment access -/

theorem State.segmentAt_zero (s : State) : s.segmentAt 0#32 = some s.a0 := by simp [State.segmentAt]

theorem State.segmentAt_ne {s : State} {id : Word} (h : id ≠ 0#32) : s.segmentAt id = s.mgr.segment id := by
  simp [State.segmentAt, h]

/-- A load succeeds exactly where a word exists, and gives it. -/
theorem State.memRead_ok_iff {s : State} {id o v : Word} : s.memRead id o = .ok v ↔ s.wordAt id o = some v := by
  unfold State.memRead State.wordAt State.segmentAt SegMgr.get
  split_ifs with h0
  · cases h : s.a0.read o <;> simp [h]
  · cases h : s.mgr.segment id with
    | none => simp
    | some g => cases h' : g.read o <;> simp [h']

/-- Why a load fails. -/
theorem State.memRead_error {s : State} {id o : Word} {r : Fault} (h : s.memRead id o = .error r) :
    (id = 0#32 ∧ s.a0.len ≤ o ∧ r = .seg0OutOfRange) ∨
    (id ≠ 0#32 ∧ s.mgr.segment id = none ∧ r = .segUnmapped) ∨
    (∃ g, id ≠ 0#32 ∧ s.mgr.segment id = some g ∧ g.len ≤ o ∧ r = .segOffsetOutOfRange) := by
  unfold State.memRead SegMgr.get at h
  split_ifs at h with h0
  · cases hr : s.a0.read o with
    | none =>
      rw [hr] at h
      exact .inl ⟨h0, Segment.read_eq_none.1 hr, (Except.error.inj h).symm⟩
    | some v => simp [hr] at h
  · cases hs : s.mgr.segment id with
    | none =>
      rw [hs] at h
      exact .inr (.inl ⟨h0, rfl, (Except.error.inj h).symm⟩)
    | some g =>
      rw [hs] at h
      cases hr : g.read o with
      | none =>
        simp only [hr] at h
        exact .inr (.inr ⟨g, h0, rfl, Segment.read_eq_none.1 hr, (Except.error.inj h).symm⟩)
      | some v => simp [hr] at h

/-- Everything a successful store does: the stored word, and the length of every segment, and every other word. -/
theorem State.memWrite_spec {s t : State} {id o v : Word} (h : s.memWrite id o v = .ok t) :
    (∃ w, s.wordAt id o = some w) ∧
    (∀ j p, t.wordAt j p = if j = id ∧ p = o then some v else s.wordAt j p) ∧
    (∀ j, (t.segmentAt j).map Segment.len = (s.segmentAt j).map Segment.len) ∧
    ((id = 0#32 ∧ ∃ g, t = { s with a0 := g }) ∨ (id ≠ 0#32 ∧ ∃ g, t = { s with mgr := s.mgr.setSegment id g })) := by
  unfold State.memWrite at h
  split_ifs at h with h0
  · cases hw : s.a0.write o v with
    | none => simp [hw] at h
    | some g =>
      obtain rfl : { s with a0 := g } = t := by simpa [hw] using h
      obtain ⟨ho, hlen, hread⟩ := Segment.write_spec hw
      obtain ⟨w, hw'⟩ := Option.isSome_iff_exists.1 (Segment.read_isSome.2 ho)
      refine ⟨⟨w, by simpa [State.wordAt, State.segmentAt, h0] using hw'⟩, fun j p => ?_, fun j => ?_, .inl ⟨h0, g, rfl⟩⟩
      · by_cases hj : j = 0#32
        · simp [State.wordAt, State.segmentAt, hj, h0, hread]
        · have : j ≠ id := fun he => hj (he.trans h0)
          simp [State.wordAt, State.segmentAt, hj, this]
      · by_cases hj : j = 0#32 <;> simp [State.segmentAt, hj, hlen]
  · cases hs : s.mgr.set id o v with
    | error r => simp [hs, Except.map] at h
    | ok m =>
      obtain rfl : { s with mgr := m } = t := by simpa [hs, Except.map] using h
      obtain ⟨-, g, g', hg, hw, rfl⟩ := SegMgr.set_spec hs
      obtain ⟨ho, hlen, hread⟩ := Segment.write_spec hw
      obtain ⟨w, hw'⟩ := Option.isSome_iff_exists.1 (Segment.read_isSome.2 ho)
      refine ⟨⟨w, by simpa [State.wordAt, State.segmentAt, h0, hg] using hw'⟩, fun j p => ?_, fun j => ?_, .inr ⟨h0, g', rfl⟩⟩
      · by_cases hj : j = 0#32
        · have : j ≠ id := fun he => h0 (he.symm.trans hj)
          simp [State.wordAt, State.segmentAt, hj, show ¬ 0#32 = id from fun he => h0 he.symm]
        · by_cases hji : j = id
          · subst hji
            simp [State.wordAt, State.segmentAt, hj, SegMgr.setSegment_segment, hread, hg]
          · simp [State.wordAt, State.segmentAt, hj, SegMgr.setSegment_segment, hji]
      · by_cases hj : j = 0#32
        · simp [State.segmentAt, hj]
        · by_cases hji : j = id
          · subst hji
            simp [State.segmentAt, hj, SegMgr.setSegment_segment, hg, hlen]
          · simp [State.segmentAt, hj, SegMgr.setSegment_segment, hji]

/-- A store to a word that exists succeeds. -/
theorem State.memWrite_of_wordAt {s : State} {id o w : Word} (v : Word) (h : s.wordAt id o = some w) :
    ∃ t, s.memWrite id o v = .ok t := by
  unfold State.memWrite SegMgr.set
  unfold State.wordAt State.segmentAt at h
  split_ifs at h ⊢ with h0
  · obtain ⟨g, hg⟩ := Segment.write_of_lt v (Segment.read_isSome.1 (Option.isSome_iff_exists.2 ⟨w, h⟩))
    simp [hg]
  · cases hs : s.mgr.segment id with
    | none => simp [hs] at h
    | some g =>
      obtain ⟨g', hg⟩ := Segment.write_of_lt v (Segment.read_isSome.1 (Option.isSome_iff_exists.2 ⟨w, by simpa [hs] using h⟩))
      simp [hg, Except.map]

/-! ## Fetch -/

/-- Everything a fetch does. -/
theorem State.fetch_spec {s t : State} {w : Word} (h : s.fetch = .ok (w, t)) :
    s.a0.read s.pc = some w ∧ t = { s with pc := s.pc + 1 } := by
  unfold State.fetch at h
  split at h
  · simp at h
  · rename_i v hv
    obtain ⟨rfl, rfl⟩ := Prod.mk.inj (Except.ok.inj h)
    exact ⟨hv, rfl⟩

theorem State.fetch_error {s : State} {r : Fault} (h : s.fetch = .error r) : r = .pcOutOfRange ∧ s.a0.len ≤ s.pc := by
  unfold State.fetch at h
  split at h
  · rename_i hr
    exact ⟨(Except.error.inj h).symm, Segment.read_eq_none.1 hr⟩
  · simp at h

theorem State.fetch_of_read {s : State} {w : Word} (h : s.a0.read s.pc = some w) :
    s.fetch = .ok (w, { s with pc := s.pc + 1 }) := by
  simp [State.fetch, h]

/-- A wait undoes the fetch: "no state of the CORE changes". -/
theorem State.holdCycle_of_fetch {s t : State} {w : Word} (h : s.fetch = .ok (w, t)) : t.holdCycle = s := by
  obtain ⟨-, rfl⟩ := State.fetch_spec h
  simp [State.holdCycle]

/-! ## Every operation on memory keeps the canonical form -/

theorem Memory.reset_wf : Memory.wf State.reset := by decide

theorem Memory.launch_wf {cfg : LaunchConfig} {ws : List Word} {s : State} (h : State.launchWords cfg ws = some s) :
    Memory.wf s := by
  unfold State.launchWords at h
  split_ifs at h with hl
  obtain rfl := Option.some.inj h
  exact ⟨Segment.ofWords_wf (Nat.lt_of_le_of_lt hl cfg.maxImageWords.isLt), Memory.reset_wf.2⟩

theorem SegMgr.setSegment_wf {m : SegMgr} {id : Word} {g : Segment} (hr : Assoc.Rising m.segments)
    (hs : ∀ e ∈ m.segments, e.2.wf) (hg : g.wf) :
    Assoc.Rising (m.setSegment id g).segments ∧ ∀ e ∈ (m.setSegment id g).segments, e.2.wf := by
  refine ⟨Assoc.insert_rising hr, fun e he => ?_⟩
  rcases Assoc.mem_insert he with rfl | he
  · exact hg
  · exact hs e he

theorem SegMgr.segment_wf {m : SegMgr} {id : Word} {g : Segment} (hs : ∀ e ∈ m.segments, e.2.wf)
    (h : m.segment id = some g) : g.wf := hs _ (Assoc.mem_of_lookup h)

theorem Memory.memWrite_wf {s t : State} {id o v : Word} (hs : Memory.wf s) (h : s.memWrite id o v = .ok t) :
    Memory.wf t := by
  obtain ⟨h0, h1, h2⟩ := hs
  unfold State.memWrite at h
  split_ifs at h
  · cases hw : s.a0.write o v with
    | none => simp [hw] at h
    | some g =>
      obtain rfl : { s with a0 := g } = t := by simpa [hw] using h
      exact ⟨Segment.write_wf h0 hw, h1, h2⟩
  · cases hm : s.mgr.set id o v with
    | error r => simp [hm, Except.map] at h
    | ok m =>
      obtain rfl : { s with mgr := m } = t := by simpa [hm, Except.map] using h
      obtain ⟨-, g, g', hg, hw, rfl⟩ := SegMgr.set_spec hm
      exact ⟨h0, SegMgr.setSegment_wf h1 h2 (Segment.write_wf (SegMgr.segment_wf h2 hg) hw)⟩

theorem Memory.map_wf {s : State} {allowed : Bool} {size id : Word} {m : SegMgr} (hs : Memory.wf s)
    (h : s.mgr.map allowed size = .ok (id, m)) : Memory.wf { s with mgr := m } := by
  obtain ⟨h0, h1, h2⟩ := hs
  have hm := (SegMgr.map_spec h).2.2
  have := SegMgr.setSegment_wf (id := id) h1 h2 (Segment.zeros_wf size)
  simp only [SegMgr.setSegment, ← hm] at this
  exact ⟨h0, this⟩

theorem Memory.unmap_wf {s : State} {id : Word} {m : SegMgr} (hs : Memory.wf s) (h : s.mgr.unmap id = .ok m) :
    Memory.wf { s with mgr := m } := by
  obtain ⟨h0, h1, h2⟩ := hs
  have hm := (SegMgr.unmap_spec h).2.2.2.2
  refine ⟨h0, ?_, fun e he => ?_⟩
  · simpa only [hm] using Assoc.erase_rising h1
  · simp only [hm] at he
    exact h2 e (Assoc.mem_erase.1 he).1

theorem Memory.duplicate_wf {s : State} {id : Word} {g : Segment} (hs : Memory.wf s) (h : s.mgr.duplicate id = .ok g) :
    Memory.wf (s.replaceA0 g) :=
  ⟨SegMgr.segment_wf hs.2.2 (SegMgr.duplicate_spec h).2, hs.2.1, hs.2.2⟩

theorem Memory.withFetchWord_wf {s : State} (hs : Memory.wf s) (nbits w : Nat) : Memory.wf (s.withFetchWord nbits w) := by
  obtain ⟨h0, h1, h2⟩ := hs
  refine ⟨?_, h1, h2⟩
  simp only [State.withFetchWord]
  generalize hp : (if s.pc = 0xFFFFFFFF#32 then 0#32 else s.pc) = p
  have hp' : p ≠ 0xFFFFFFFF#32 := by
    rw [← hp]
    split_ifs with h
    · decide
    · exact h
  have hlt : p < p + 1 := by
    rw [BitVec.lt_def, BitVec.toNat_add]
    have : p.toNat ≠ 0xFFFFFFFF := fun h => hp' (BitVec.eq_of_toNat_eq h)
    have := p.isLt
    have h1 : (1 : Word).toNat = 1 := rfl
    rw [h1]
    omega
  split_ifs with hl
  · exact Segment.putCell_wf (g := s.a0) h0 hl
  · have hle : s.a0.len.toNat ≤ p.toNat := by
      rw [BitVec.lt_def] at hl
      omega
    have hlt' := BitVec.lt_def.1 hlt
    have hg : Segment.wf { len := p + 1, cells := s.a0.cells } :=
      ⟨h0.1, fun e he => ⟨by have := (h0.2 e he).1; simp only; omega, (h0.2 e he).2⟩⟩
    exact Segment.putCell_wf hg hlt

end Sys2Proof.Machine
end

