-- ==== Sys2Proof/Laws/Exec.lean ====
section
/-! SUPPORT. What each meaning and one step can answer, said once: later proofs cite these and unfold no meaning. -/

namespace Sys2Proof.Machine

section Meanings
variable {s t : State}

theorem execCmov_next {a b c : RegIdx} (h : exec (.cmov a b c) s = .next t) :
    (s.x c ≠ 0#32 ∧ t = s.writeReg a (s.x b)) ∨ (s.x c = 0#32 ∧ t = s) := by
  by_cases hc : s.x c = 0#32
  · exact .inr ⟨hc, by simpa [exec, execCmov, nonZero, hc] using h.symm⟩
  · exact .inl ⟨hc, by simpa [exec, execCmov, nonZero, hc] using h.symm⟩

theorem execAdd_next {a b c : RegIdx} (h : exec (.add a b c) s = .next t) :
    t = s.writeReg a (aluAdd (s.x b) (s.x c)) := by simpa [exec, execAdd] using h.symm

theorem execMul_next {a b c : RegIdx} (h : exec (.mul a b c) s = .next t) :
    t = s.writeReg a (aluMul (s.x b) (s.x c)) := by simpa [exec, execMul] using h.symm

theorem execNand_next {a b c : RegIdx} (h : exec (.nand a b c) s = .next t) :
    t = s.writeReg a (aluNand (s.x b) (s.x c)) := by simpa [exec, execNand] using h.symm

theorem execLi_next {a : RegIdx} {imm : Nat} (h : exec (.li a imm) s = .next t) :
    t = s.writeReg a (immediate imm) := by simpa [exec, execLi] using h.symm

theorem execDiv_next {a b c : RegIdx} (h : exec (.div a b c) s = .next t) :
    (s.x c ≠ 0#32 ∧ t = s.writeReg a (BitVec.ofNat 32 ((s.x b).toNat / (s.x c).toNat))) ∨
      (s.x c = 0#32 ∧ t = s.raise .divideByZero) := by
  by_cases hc : s.x c = 0#32
  · exact .inr ⟨hc, by simpa [exec, execDiv, aluDiv, hc, Except.map] using h.symm⟩
  · exact .inl ⟨hc, by simpa [exec, execDiv, aluDiv, hc, Except.map] using h.symm⟩

theorem execLoad_next {a b c : RegIdx} (h : exec (.load a b c) s = .next t) :
    (∃ v, s.wordAt (s.x b) (s.x c) = some v ∧ t = s.writeReg a v) ∨
      ∃ r, s.memRead (s.x b) (s.x c) = .error r ∧ t = s.raise r := by
  simp only [exec, execLoad, loadAddr] at h
  cases hm : s.memRead (s.x b) (s.x c) with
  | ok v => exact .inl ⟨v, State.memRead_ok_iff.1 hm, by simpa [hm, Except.map] using h.symm⟩
  | error r => exact .inr ⟨r, rfl, by simpa [hm, Except.map] using h.symm⟩

theorem execStore_next {a b c : RegIdx} (h : exec (.store a b c) s = .next t) :
    s.memWrite (s.x a) (s.x b) (s.x c) = .ok t ∨
      ∃ r, s.memWrite (s.x a) (s.x b) (s.x c) = .error r ∧ t = s.raise r := by
  simp only [exec, execStore, storeAddr] at h
  exact State.settle_next h

theorem execHalt_next (h : exec .halt s = .next t) : t = s.halt := by simpa [exec, execHalt] using h.symm

theorem execMap_next {b c : RegIdx} (h : exec (.map b c) s = .next t) :
    (∃ id m, s.mgr.map (s.canAllocate (s.x c)) (s.x c) = .ok (id, m) ∧
      t = ({ s with mgr := m } : State).writeReg b id) ∨
    (s.mgr.map (s.canAllocate (s.x c)) (s.x c) = .error .resourceExhausted ∧ t = s.raise .resourceExhausted) := by
  simp only [exec, execMap] at h
  cases hm : s.mgr.map (s.canAllocate (s.x c)) (s.x c) with
  | ok r => exact .inl ⟨r.1, r.2, rfl, by simpa [hm, Except.map] using h.symm⟩
  | error r =>
    obtain rfl := (SegMgr.map_error hm).1
    exact .inr ⟨rfl, by simpa [hm, Except.map] using h.symm⟩

theorem execUnmap_next {c : RegIdx} (h : exec (.unmap c) s = .next t) :
    (∃ m, s.mgr.unmap (s.x c) = .ok m ∧ t = { s with mgr := m }) ∨
      ∃ r, s.mgr.unmap (s.x c) = .error r ∧ t = s.raise r := by
  simp only [exec, execUnmap] at h
  cases hm : s.mgr.unmap (s.x c) with
  | ok m => exact .inl ⟨m, rfl, by simpa [hm, Except.map] using h.symm⟩
  | error r => exact .inr ⟨r, rfl, by simpa [hm, Except.map] using h.symm⟩

theorem execOut_next {c : RegIdx} (h : exec (.out c) s = .next t) :
    ((s.x c).toNat ≤ 255 ∧ t = { s with output := s.output ++ [BitVec.ofNat 8 (s.x c).toNat] }) ∨
      (255 < (s.x c).toNat ∧ t = s.raise .outputOutOfRange) := by
  simp only [exec, execOut, State.outWrite] at h
  by_cases hc : (s.x c).toNat > 255
  · rw [if_pos hc] at h
    exact .inr ⟨hc, by simpa using h.symm⟩
  · rw [if_neg hc] at h
    exact .inl ⟨by omega, by simpa using h.symm⟩

theorem execIn_next {c : RegIdx} (h : exec (.inp c) s = .next t) :
    (∃ r rest, s.input = r :: rest ∧ t = ({ s with input := rest } : State).writeReg c r.value) ∨
      (s.input = [] ∧ t = s.holdCycle) := by
  simp only [exec, execIn] at h
  split at h
  · rename_i hi
    exact .inr ⟨hi, by simpa using h.symm⟩
  · rename_i r rest hi
    exact .inl ⟨r, rest, hi, by simpa using h.symm⟩

theorem execLoadp_next {b c : RegIdx} (h : exec (.loadp b c) s = .next t) :
    (s.x b = 0#32 ∧ t = s.jump (s.x c)) ∨
    (s.x b ≠ 0#32 ∧ ∃ g, s.mgr.segment (s.x b) = some g ∧ t = (s.replaceA0 g).jump (s.x c)) ∨
    (s.x b ≠ 0#32 ∧ s.mgr.segment (s.x b) = none ∧ t = s.raise .segUnmapped) := by
  simp only [exec, execLoadp, nonZero] at h
  by_cases hb : s.x b = 0#32
  · exact .inl ⟨hb, by simpa [hb] using h.symm⟩
  · cases hs : s.mgr.segment (s.x b) with
    | none => exact .inr (.inr ⟨hb, rfl, by simpa [hb, SegMgr.duplicate, hs, Except.map] using h.symm⟩)
    | some g => exact .inr (.inl ⟨hb, g, rfl, by simpa [hb, SegMgr.duplicate, hs, Except.map] using h.symm⟩)

end Meanings

/-- Why an UNMAP fails. -/
theorem SegMgr.unmap_error {m : SegMgr} {id : Word} {r : Fault} (h : m.unmap id = .error r) :
    (id = 0#32 ∧ r = .segIdZero) ∨ (id ≠ 0#32 ∧ m.isMapped id = false ∧ r = .segUnmapped) := by
  unfold SegMgr.unmap at h
  split_ifs at h with h0
  · exact .inl ⟨h0, (Except.error.inj h).symm⟩
  · split at h
    · rename_i hs
      exact .inr ⟨h0, SegMgr.not_isMapped_iff.2 hs, (Except.error.inj h).symm⟩
    · cases h

/-- Why a store fails. -/
theorem State.memWrite_error {s : State} {id o v : Word} {r : Fault} (h : s.memWrite id o v = .error r) :
    (id = 0#32 ∧ s.a0.len ≤ o ∧ r = .seg0OutOfRange) ∨
    (id ≠ 0#32 ∧ s.mgr.segment id = none ∧ r = .segUnmapped) ∨
    (∃ g, id ≠ 0#32 ∧ s.mgr.segment id = some g ∧ g.len ≤ o ∧ r = .segOffsetOutOfRange) := by
  unfold State.memWrite SegMgr.set at h
  split_ifs at h with h0
  · cases hw : s.a0.write o v with
    | none => exact .inl ⟨h0, Segment.write_eq_none.1 hw, by simpa [hw] using h.symm⟩
    | some g => simp [hw] at h
  · cases hs : s.mgr.segment id with
    | none => exact .inr (.inl ⟨h0, rfl, by simpa [hs, Except.map] using h.symm⟩)
    | some g =>
      cases hw : g.write o v with
      | none => exact .inr (.inr ⟨g, h0, rfl, Segment.write_eq_none.1 hw, by simpa [hs, hw, Except.map] using h.symm⟩)
      | some g' => simp [hs, hw, Except.map] at h

/-- Every instruction completes, faults or waits in a next state. -/
theorem exec_isNext (i : Instr) (s : State) : ∃ t, exec i s = .next t := by
  cases i <;> simp only [exec]
  case inp c =>
    simp only [execIn]
    split <;> exact ⟨_, rfl⟩
  all_goals exact ⟨_, rfl⟩

/-- What an instruction does to the run state: nothing, halt, or a fault that changes nothing else. -/
theorem exec_ends {i : Instr} {s t : State} (h : exec i s = .next t) :
    t.run = s.run ∨ (i = .halt ∧ t = s.halt) ∨ ∃ r, t = s.raise r := by
  cases i with
  | cmov a b c => rcases execCmov_next h with ⟨-, rfl⟩ | ⟨-, rfl⟩ <;> exact .inl rfl
  | load a b c =>
    rcases execLoad_next h with ⟨v, -, rfl⟩ | ⟨r, -, rfl⟩
    · exact .inl rfl
    · exact .inr (.inr ⟨r, rfl⟩)
  | store a b c =>
    rcases execStore_next h with h | ⟨r, -, rfl⟩
    · rcases (State.memWrite_spec h).2.2.2 with ⟨-, g, rfl⟩ | ⟨-, g, rfl⟩ <;> exact .inl rfl
    · exact .inr (.inr ⟨r, rfl⟩)
  | add a b c => exact .inl (by rw [execAdd_next h]; rfl)
  | mul a b c => exact .inl (by rw [execMul_next h]; rfl)
  | div a b c =>
    rcases execDiv_next h with ⟨-, rfl⟩ | ⟨-, rfl⟩
    · exact .inl rfl
    · exact .inr (.inr ⟨_, rfl⟩)
  | nand a b c => exact .inl (by rw [execNand_next h]; rfl)
  | halt => exact .inr (.inl ⟨rfl, execHalt_next h⟩)
  | map b c =>
    rcases execMap_next h with ⟨id, m, -, rfl⟩ | ⟨-, rfl⟩
    · exact .inl rfl
    · exact .inr (.inr ⟨_, rfl⟩)
  | unmap c =>
    rcases execUnmap_next h with ⟨m, -, rfl⟩ | ⟨r, -, rfl⟩
    · exact .inl rfl
    · exact .inr (.inr ⟨r, rfl⟩)
  | out c =>
    rcases execOut_next h with ⟨-, rfl⟩ | ⟨-, rfl⟩
    · exact .inl rfl
    · exact .inr (.inr ⟨_, rfl⟩)
  | inp c => rcases execIn_next h with ⟨r, rest, -, rfl⟩ | ⟨-, rfl⟩ <;> exact .inl rfl
  | loadp b c =>
    rcases execLoadp_next h with ⟨-, rfl⟩ | ⟨-, g, -, rfl⟩ | ⟨-, -, rfl⟩
    · exact .inl rfl
    · exact .inl rfl
    · exact .inr (.inr ⟨_, rfl⟩)
  | li a imm => exact .inl (by rw [execLi_next h]; rfl)

/-- At most one instruction is next. -/
theorem State.nextInstr_unique {s : State} {i j : Instr} (hi : s.nextInstr i) (hj : s.nextInstr j) : i = j := by
  obtain ⟨w, hw, hd⟩ := hi
  obtain ⟨w', hw', hd'⟩ := hj
  obtain rfl : w = w' := Option.some.inj (hw.symm.trans hw')
  exact Except.ok.inj (hd.symm.trans hd')

/-- An instruction is next only inside A0. -/
theorem State.nextInstr_lt {s : State} {i : Instr} (h : s.nextInstr i) : s.pc < s.a0.len := by
  obtain ⟨w, hw, -⟩ := h
  exact Segment.read_isSome.1 (Option.isSome_iff_exists.2 ⟨w, hw⟩)

/-- A register write has the frame of one. -/
theorem State.writeReg_only (s : State) (a : RegIdx) (v : Word) : OnlyRegChanges a s (s.writeReg a v) :=
  ⟨⟨rfl, rfl, rfl, rfl, rfl, rfl, rfl⟩, fun k hk => State.writeReg_x_ne s a k v hk⟩

/-- Everything one step can do. -/
theorem step_cases {s t : State} (h : step s = .next t) :
    (s.run ≠ .running ∧ t = s) ∨
    (s.run = .running ∧ s.a0.len ≤ s.pc ∧ t = s.raise .pcOutOfRange) ∨
    (s.run = .running ∧ ∃ w, s.a0.read s.pc = some w ∧ 14 ≤ w.toNat / 2 ^ 28 ∧
      t = ({ s with pc := s.pc + 1 } : State).raise .invalidOpcode) ∨
    (s.run = .running ∧ ∃ i, s.nextInstr i ∧ exec i { s with pc := s.pc + 1 } = .next t) := by
  unfold step at h
  by_cases hr : s.run = .running
  case neg =>
    refine .inl ⟨hr, ?_⟩
    split at h
    · exact absurd ‹_› hr
    · exact (Host.Outcome.next.inj h).symm
    · exact (Host.Outcome.next.inj h).symm
  case pos =>
    simp only [hr] at h
    cases hf : s.fetch with
    | error r =>
      obtain ⟨rfl, hl⟩ := State.fetch_error hf
      exact .inr (.inl ⟨hr, hl, by simpa [hf] using h.symm⟩)
    | ok p =>
      obtain ⟨w, u⟩ := p
      obtain ⟨hw, rfl⟩ := State.fetch_spec hf
      simp only [hf] at h
      cases hd : decode w with
      | error e => exact .inr (.inr (.inl ⟨hr, w, hw, (decode_error hd).1, by simpa [hd] using h.symm⟩))
      | ok i => exact .inr (.inr (.inr ⟨hr, i, ⟨w, hw, hd⟩, by simpa [hd] using h⟩))

end Sys2Proof.Machine
end

