-- ==== Sys2Proof/Laws/Invariant.lean ====
section
/-! SUPPORT. The operations of the segment manager keep the invariant of 10_state.md R33. -/

namespace Sys2Proof.Machine

/-- `map` keeps the invariant. -/
theorem SegMgr.map_inv {m m' : SegMgr} {al : Bool} {size id : Word} (I : m.Inv) (h : m.map al size = .ok (id, m')) : m'.Inv := by
  obtain ⟨_, h2, h3⟩ := SegMgr.map_spec h
  have hseg := SegMgr.map_segment h
  have hmapped : ∀ j, m'.isMapped j = true ↔ j = id ∨ m.isMapped j = true := by
    intro j
    simp only [SegMgr.isMapped, hseg]
    split_ifs <;> simp_all
  have hrange : 1 ≤ id.toNat ∧ id.toNat < m'.nextUnusedId := by
    rcases h2 with ⟨rest, hf, _, hn⟩ | ⟨_, _, hid, _, hn⟩
    · rw [hn]
      exact I.free_range id (by simp [hf])
    · have := I.next_pos
      omega
  have hmono : m.nextUnusedId ≤ m'.nextUnusedId := by
    rcases h2 with ⟨rest, hf, _, hn⟩ | ⟨_, _, hid, _, hn⟩ <;> omega
  have hsub : m'.freeIds.Sublist m.freeIds := by
    rcases h2 with ⟨rest, hf, hr, hn⟩ | ⟨hf, _, hid, hr, hn⟩
    · rw [hf, hr]
      exact List.sublist_cons_self _ _
    · rw [hf, hr]
  have hidfree : id ∉ m'.freeIds := by
    rcases h2 with ⟨rest, hf, hr, hn⟩ | ⟨hf, _, hid, hr, hn⟩
    · have := I.free_nodup
      rw [hf] at this
      rw [hr]
      exact (List.nodup_cons.1 this).1
    · simp [hr]
  refine ⟨?_, ?_, ?_, ?_, ?_, ?_, ?_, ?_, ?_⟩
  · have := I.next_pos
    omega
  · rcases h2 with ⟨rest, hf, _, hn⟩ | ⟨_, hl, hid, _, hn⟩
    · rw [hn]
      exact I.next_le
    · omega
  · rw [h3]
    exact Assoc.insert_rising I.segments_rising
  · rw [h3]
    intro e he
    rcases Assoc.mem_insert he with rfl | he
    · exact Segment.zeros_wf size
    · exact I.segments_wf e he
  · rw [h3]
    intro e he
    rcases Assoc.mem_insert he with rfl | he
    · exact hrange
    · have := I.mapped_range e he
      omega
  · exact I.free_nodup.sublist hsub
  · intro j hj
    have := I.free_range j (hsub.subset hj)
    omega
  · intro j hj
    rw [Bool.eq_false_iff, Ne, hmapped]
    rintro (rfl | hh)
    · exact hidfree hj
    · rw [I.free_unmapped j (hsub.subset hj)] at hh
      cases hh
  · intro j h1 hlt
    rw [hmapped]
    rcases h2 with ⟨rest, hf, hr, hn⟩ | ⟨hf, _, hid, hr, hn⟩
    · rcases I.covered j h1 (by omega) with h | h
      · exact .inl (.inr h)
      · rw [hf] at h
        rcases List.mem_cons.1 h with h | h
        · exact .inl (.inl h)
        · exact .inr (hr ▸ h)
    · by_cases hj : j.toNat = m.nextUnusedId
      · exact .inl (.inl (BitVec.eq_of_toNat_eq (by omega)))
      · rcases I.covered j h1 (by omega) with h | h
        · exact .inl (.inr h)
        · rw [hf] at h
          cases h

/-- `unmap` keeps the invariant. -/
theorem SegMgr.unmap_inv {m m' : SegMgr} {id : Word} (I : m.Inv) (h : m.unmap id = .ok m') : m'.Inv := by
  obtain ⟨h0, h1, hn, hf, hs⟩ := SegMgr.unmap_spec h
  have hseg := SegMgr.unmap_segment h
  have hmapped : ∀ j, m'.isMapped j = true ↔ j ≠ id ∧ m.isMapped j = true := by
    intro j
    simp only [SegMgr.isMapped, hseg]
    split_ifs <;> simp_all
  have hrange : 1 ≤ id.toNat ∧ id.toNat < m.nextUnusedId := by
    obtain ⟨g, hg⟩ := SegMgr.isMapped_iff.1 h1
    exact I.mapped_range _ (Assoc.mem_of_lookup hg)
  refine ⟨?_, ?_, ?_, ?_, ?_, ?_, ?_, ?_, ?_⟩
  · rw [hn]
    exact I.next_pos
  · rw [hn]
    exact I.next_le
  · rw [hs]
    exact Assoc.erase_rising I.segments_rising
  · rw [hs]
    intro e he
    exact I.segments_wf e (Assoc.mem_erase.1 he).1
  · rw [hs, hn]
    intro e he
    exact I.mapped_range e (Assoc.mem_erase.1 he).1
  · rw [hf, List.nodup_cons]
    refine ⟨fun hh => ?_, I.free_nodup⟩
    rw [I.free_unmapped _ hh] at h1
    cases h1
  · rw [hf, hn]
    intro j hj
    rcases List.mem_cons.1 hj with rfl | hj
    · exact hrange
    · exact I.free_range j hj
  · rw [hf]
    intro j hj
    rw [Bool.eq_false_iff, Ne, hmapped]
    rintro ⟨h1, h2⟩
    rcases List.mem_cons.1 hj with rfl | hj
    · exact h1 rfl
    · rw [I.free_unmapped j hj] at h2
      cases h2
  · intro j hj hlt
    rw [hmapped, hf]
    by_cases hji : j = id
    · exact .inr (by simp [hji])
    · rcases I.covered j hj (by omega) with h | h
      · exact .inl ⟨hji, h⟩
      · exact .inr (List.mem_cons_of_mem _ h)

/-- `set` keeps the invariant, and the length of every segment (I4). -/
theorem SegMgr.set_inv {m m' : SegMgr} {id o v : Word} (I : m.Inv) (h : m.set id o v = .ok m') :
    m'.Inv ∧ ∀ (j : Word) (g g' : Segment), m.segment j = some g → m'.segment j = some g' → g'.len = g.len := by
  obtain ⟨h0, g, g', hg, hw, rfl⟩ := SegMgr.set_spec h
  have hseg := SegMgr.setSegment_segment m id
  have hmapped : ∀ j, (m.setSegment id g').isMapped j = m.isMapped j := by
    intro j
    simp only [SegMgr.isMapped, hseg]
    split_ifs <;> simp_all
  have hwf := Segment.write_wf (SegMgr.segment_wf I.segments_wf hg) hw
  refine ⟨⟨I.next_pos, I.next_le, ?_, ?_, ?_, I.free_nodup, I.free_range, ?_, ?_⟩, ?_⟩
  · exact (SegMgr.setSegment_wf I.segments_rising I.segments_wf hwf).1
  · exact (SegMgr.setSegment_wf I.segments_rising I.segments_wf hwf).2
  · intro e he
    rcases Assoc.mem_insert he with rfl | he
    · exact I.mapped_range (_, g) (Assoc.mem_of_lookup hg)
    · exact I.mapped_range e he
  · intro j hj
    rw [hmapped]
    exact I.free_unmapped j hj
  · intro j h1 h2
    rw [hmapped]
    exact I.covered j h1 h2
  · intro j k k' hk hk'
    rw [hseg] at hk'
    split_ifs at hk' with hj
    · subst hj
      rw [hg] at hk
      cases hk
      cases hk'
      exact (Segment.write_spec hw).2.1
    · rw [hk] at hk'
      cases hk'
      rfl

/-- A fresh manager meets the invariant. -/
theorem SegMgr.new_inv : SegMgr.new.Inv := by
  refine ⟨by decide, by decide, by decide, by simp [SegMgr.new], by simp [SegMgr.new], by decide, by simp [SegMgr.new],
    by simp [SegMgr.new], fun id h1 h2 => ?_⟩
  simp [SegMgr.new] at h2
  omega

/-- Everything `free` does: the manager is a fresh one again. -/
theorem SegMgr.free_spec (m : SegMgr) : m.free = SegMgr.new := rfl

end Sys2Proof.Machine
end

