-- ==== Sys2Proof/Laws/PerInstr.lean ====
section
/-! SUPPORT. Families of statements about the instruction as it is written, one lemma per constructor. -/

namespace Sys2Proof.Laws.EncodedOpcode

/-- The top four bits of an instruction's word are its opcode (30_encoding.md R91, R92, R97). -/
def Statement (i : Instr) : Prop := i.wellFormed = true → field (encode i) 4 28 = i.opcode

theorem cmov (a b c : RegIdx) : Statement (.cmov a b c) := fun _ => (packR_fields (by decide) a b c).1
theorem load (a b c : RegIdx) : Statement (.load a b c) := fun _ => (packR_fields (by decide) a b c).1
theorem store (a b c : RegIdx) : Statement (.store a b c) := fun _ => (packR_fields (by decide) a b c).1
theorem add (a b c : RegIdx) : Statement (.add a b c) := fun _ => (packR_fields (by decide) a b c).1
theorem mul (a b c : RegIdx) : Statement (.mul a b c) := fun _ => (packR_fields (by decide) a b c).1
theorem div (a b c : RegIdx) : Statement (.div a b c) := fun _ => (packR_fields (by decide) a b c).1
theorem nand (a b c : RegIdx) : Statement (.nand a b c) := fun _ => (packR_fields (by decide) a b c).1
theorem halt : Statement .halt := fun _ => (packR_fields (by decide) 0 0 0).1
theorem map (b c : RegIdx) : Statement (.map b c) := fun _ => (packR_fields (by decide) 0 b c).1
theorem unmap (c : RegIdx) : Statement (.unmap c) := fun _ => (packR_fields (by decide) 0 0 c).1
theorem out (c : RegIdx) : Statement (.out c) := fun _ => (packR_fields (by decide) 0 0 c).1
theorem inp (c : RegIdx) : Statement (.inp c) := fun _ => (packR_fields (by decide) 0 0 c).1
theorem loadp (b c : RegIdx) : Statement (.loadp b c) := fun _ => (packR_fields (by decide) 0 b c).1
theorem li (a : RegIdx) (imm : Nat) : Statement (.li a imm) := fun h =>
  (packI_fields (of_decide_eq_true h) a).1

end Sys2Proof.Laws.EncodedOpcode
end

