-- ==== Sys2Proof/Tests/Slice0.lean ====
section
/-! SUPPORT. The model's own tests. Expected results come from spec/: the tables of 95_test_vectors.md (sections 1 and 2), the
worked examples of the instruction rules, or words assembled by hand from 30_encoding.md R91 and R92. -/

namespace Sys2Proof.Tests

open Sys2Proof Sys2Proof.Machine

/-! ## Helpers -/

/-- The state an outcome goes on in. -/
def stateOf : Host.Outcome State Fault Refusal → Option State
  | .next t => some t
  | .fault _ => none
  | .refused _ => none

/-- Reset with an image, and given registers. -/
def boot (image : List Word) (regs : List (RegIdx × Word) := []) : State :=
  regs.foldl (fun s r => s.writeReg r.1 r.2) { State.reset with a0 := Segment.ofWords image }

/-- One field of the state after one step. -/
def after {α : Type} (s : State) (f : State → α) : Option α := (stateOf (step s)).map f

/-- A manager with segment 1 mapped, holding the given words. -/
def oneSegment (words : List Word) : SegMgr :=
  { nextUnusedId := 2, freeIds := [], segments := [(1, Segment.ofWords words)] }

/-- A fault of the first step: the run state and `pc` after it. -/
def faultOf (s : State) : Option (RunState × Word) := after s fun t => (t.run, t.pc)

/-! ## WellFormed refuses, one term for its one check (R95) -/

theorem test_wellFormed_refuses_wide_immediate : (Instr.li 0 0x2000000).wellFormed = false := by decide

theorem test_wellFormed_accepts_widest_immediate : (Instr.li 7 0x1FFFFFF).wellFormed = true := by decide

/-! ## Decode: words written out bit by bit (op, ignored bits, a, b, c), the decode table of section 2.1 -/

theorem test_decode_cmov : decode 0b0000_0000000000000000000_001_010_011#32 = .ok (.cmov 1 2 3) := by rfl

theorem test_decode_load : decode 0b0001_0000000000000000000_110_010_101#32 = .ok (.load 6 2 5) := by rfl

theorem test_decode_store : decode 0b0010_0000000000000000000_010_101_100#32 = .ok (.store 2 5 4) := by rfl

theorem test_decode_add : decode 0b0011_0000000000000000000_001_010_011#32 = .ok (.add 1 2 3) := by rfl

theorem test_decode_mul : decode 0b0100_0000000000000000000_100_100_101#32 = .ok (.mul 4 4 5) := by rfl

theorem test_decode_div : decode 0b0101_0000000000000000000_001_010_011#32 = .ok (.div 1 2 3) := by rfl

theorem test_decode_nand : decode 0b0110_0000000000000000000_011_000_000#32 = .ok (.nand 3 0 0) := by rfl

theorem test_decode_halt : decode 0b0111_1111111111111111111_111_111_111#32 = .ok .halt := by rfl

theorem test_decode_map : decode 0b1000_0000000000000000000_111_010_011#32 = .ok (.map 2 3) := by rfl

theorem test_decode_unmap : decode 0b1001_0000000000000000000_111_111_010#32 = .ok (.unmap 2) := by rfl

theorem test_decode_out : decode 0b1010_0000000000000000000_000_000_110#32 = .ok (.out 6) := by rfl

theorem test_decode_in : decode 0b1011_0000000000000000000_000_000_011#32 = .ok (.inp 3) := by rfl

theorem test_decode_loadp : decode 0b1100_0000000000000000000_000_010_000#32 = .ok (.loadp 2 0) := by rfl

theorem test_decode_li : decode 0b1101_001_0000000000000000001001000#32 = .ok (.li 1 72) := by rfl

theorem test_decode_ignores_bits_27_to_9 : decode 0x0FFFFE53#32 = .ok (.cmov 1 2 3) := by rfl

theorem test_decode_refuses_opcode_14 : decode 0xE0000000#32 = .error (.invalidOpcode 14) := by rfl

theorem test_decode_refuses_opcode_15 : decode 0xFFFFFFFF#32 = .error (.invalidOpcode 15) := by rfl

theorem test_decodeBytes_refuses_short_word :
    decodeBytes [0x70#8, 0#8, 0#8] = .error DecodeError.truncatedWord := by rfl

theorem test_decodeTableWord : decodeTableWord 32 0xD2000048 = some (.li 1 72) := by decide

/-- R50: byte order of the image. -/
theorem test_imageWords_big_endian : imageWords [0xD2#8, 0x00#8, 0x00#8, 0x48#8, 0x70#8] = [0xD2000048#32] := by decide

/-- R102. -/
theorem test_assembly : (Instr.store 2 5 4).assembly = "STORE r2, r5, r4" := by rfl

/-- R103: NOP is the word 0 and NOT r1, r2 is NAND r1, r2, r2. -/
theorem test_pseudo_instructions : encode .nop = 0#32 ∧ encode (.not 1 2) = 0x60000052#32 := by decide

/-! ## The cycle -/

theorem test_fetch_from_empty_image : faultOf (boot []) = some (.faulted .pcOutOfRange, 0#32) := by decide

theorem test_invalid_opcode_keeps_increment :
    faultOf (boot [0xE0000000#32]) = some (.faulted .invalidOpcode, 1#32) := by decide

theorem test_halted_stays : step { State.reset with run := .halted } = .next { State.reset with run := .halted } := by rfl

/-! ## The alu (section 2.2) -/

theorem test_cmov_moves_on_top_bit :
    after (boot [0x00000053#32] [(2, 0x12345678#32), (3, 0x80000000#32)]) (·.x 1) = some 0x12345678#32 := by decide

theorem test_cmov_keeps_on_zero :
    after (boot [0x00000053#32] [(1, 5#32), (2, 0x12345678#32)]) (·.x 1) = some 5#32 := by decide

theorem test_add_wraps : after (boot [0x30000053#32] [(2, 0xFFFFFFFF#32), (3, 2#32)]) (·.x 1) = some 1#32 := by decide

theorem test_add_reads_before_write : after (boot [0x30000049#32] [(1, 5#32)]) (·.x 1) = some 10#32 := by decide

theorem test_mul_keeps_low_word :
    after (boot [0x40000053#32] [(2, 0xFFFFFFFF#32), (3, 2#32)]) (·.x 1) = some 0xFFFFFFFE#32 := by decide

theorem test_div_is_unsigned :
    after (boot [0x50000053#32] [(2, 0xFFFFFFFF#32), (3, 0x10#32)]) (·.x 1) = some 0x0FFFFFFF#32 := by decide

theorem test_div_by_zero_keeps_target :
    after (boot [0x50000053#32] [(1, 5#32), (2, 7#32)]) (fun t => (t.run, t.pc, t.x 1)) =
      some (.faulted .divideByZero, 1#32, 5#32) := by decide

theorem test_nand :
    after (boot [0x60000053#32] [(2, 0xF0F0F0F0#32), (3, 0xFF00FF00#32)]) (·.x 1) = some 0x0FFF0FFF#32 := by decide

theorem test_li_largest : after (boot [0xD1FFFFFF#32]) (·.x 0) = some 0x01FFFFFF#32 := by decide

theorem test_li_example : after (boot [0xD2000048#32]) (·.x 1) = some 72#32 := by decide

/-! ## Load and store (section 2.3) -/

theorem test_load_from_segment :
    after { boot [0x10000195#32] [(2, 1#32), (5, 4#32)] with mgr := oneSegment [0, 0, 0, 0, 65] } (·.x 6) =
      some 65#32 := by decide

theorem test_load_own_word : after (boot [0x10000040#32, 0x70000000#32]) (·.x 1) = some 0x10000040#32 := by decide

theorem test_store_to_segment :
    after { boot [0x200000AC#32] [(2, 1#32), (5, 4#32), (4, 65#32)] with mgr := oneSegment [0, 0, 0, 0, 0] }
      (fun t => (t.wordAt 1#32 4#32, t.wordAt 1#32 3#32)) = some (some 65#32, some 0#32) := by decide

theorem test_store_zero_to_program :
    after (boot [0x20000008#32, 1, 2, 3] [(1, 2#32)]) (fun t => [t.wordAt 0 1, t.wordAt 0 2, t.wordAt 0 3]) =
      some [some 1#32, some 0#32, some 3#32] := by decide

/-! ## Control (section 2.4) -/

theorem test_halt : after (boot [0x70000000#32, 0xF0000000#32]) (fun t => (t.run, t.pc)) = some (.halted, 1#32) := by decide

theorem test_loadp_jumps : after (boot [0xC0000005#32] [(5, 4#32)]) (fun t => (t.pc, t.a0.len)) = some (4#32, 1#32) := by decide

theorem test_loadp_replaces :
    after { boot [0xC0000010#32] [(2, 1#32)] with mgr := oneSegment [0x70000000] }
      (fun t => (t.a0, t.pc, t.mgr.isMapped 1#32)) = some (Segment.ofWords [0x70000000], 0#32, true) := by decide

/-! ## Segment allocation (section 2.5) -/

theorem test_map_fresh :
    after (boot [0x80000013#32] [(3, 5#32)]) (fun t => (t.x 2, t.mgr.nextUnusedId, t.wordAt 1 4, t.wordAt 1 5)) =
      some (1#32, 2, some 0#32, none) := by decide

theorem test_map_reads_size_before_writing_id :
    after (boot [0x8000001B#32] [(3, 4#32)]) (fun t => (t.x 3, (t.segmentAt 1#32).map Segment.len)) =
      some (1#32, some 4#32) := by decide

theorem test_unmap_pushes_id :
    after { boot [0x90000002#32] [(2, 1#32)] with mgr := oneSegment [7] } (fun t => (t.mgr.freeIds, t.mgr.isMapped 1#32)) =
      some ([1#32], false) := by decide

theorem test_unmap_id_zero : faultOf (boot [0x90000000#32]) = some (.faulted .segIdZero, 1#32) := by decide

/-! ## Input and output (section 2.6) -/

theorem test_out_255 : after (boot [0xA0000001#32] [(1, 255#32)]) (·.output) = some [255#8] := by decide

theorem test_out_256_faults :
    after (boot [0xA0000001#32] [(1, 256#32)]) (fun t => (t.run, t.output)) = some (.faulted .outputOutOfRange, []) := by decide

theorem test_in_byte_255 :
    after ((boot [0xB0000003#32]).respond (.byte 255)) (fun t => (t.x 3, t.input)) = some (0xFF#32, []) := by decide

theorem test_in_end_of_stream : after ((boot [0xB0000003#32]).respond .eof) (·.x 3) = some 0xFFFFFFFF#32 := by decide

theorem test_in_waits : step (boot [0xB0000003#32]) = .next (boot [0xB0000003#32]) := by rfl

/-! ## The host's placement of a word -/

theorem test_withFetchWord_runs : after (State.reset.withFetchWord 32 0xD2000048) (fun t => (t.x 1, t.pc)) =
    some (72#32, 1#32) := by decide

theorem test_withFetchWord_decodes_what_step_runs :
    (State.reset.withFetchWord 32 0xB0000003).fetch.map (·.1) = .ok 0xB0000003#32 := by rfl

/-- The launch parameters: a file of 5 bytes has a run under Truncate and none under Reject (R243). -/
theorem test_launch_remainder :
    (State.launch ⟨1, .truncate⟩ [0x70#8, 0, 0, 0, 9]).isSome = true ∧
      State.launch ⟨1, .reject⟩ [0x70#8, 0, 0, 0, 9] = none := by decide

/-- An image longer than MAX_IMAGE_WORDS has no run (R243). -/
theorem test_launch_too_long : State.launchWords ⟨1, .truncate⟩ [1, 2] = none := by decide

/-! ## Witnesses: for each statement with hypotheses, a concrete state and operands that meet them together -/

theorem reset_inv : State.reset.Inv := ⟨Segment.empty_wf, SegMgr.new_inv⟩

theorem boot_inv (image : List Word) (h : image.length < 2 ^ 32) : (boot image).Inv :=
  ⟨Segment.ofWords_wf h, SegMgr.new_inv⟩

theorem witness_LaunchGivesResetValues :
    ([1, 2] : List Word).length ≤ (⟨2, .reject⟩ : LaunchConfig).maxImageWords.toNat := by decide

theorem witness_ImageFileIsBigEndian :
    (State.launch ⟨1, .reject⟩ [1#8, 2, 3, 4]).isSome = true ∧ ([1#8, 2, 3, 4] : List Byte)[4 * (0#32).toNat + 3]? = some 4 := by
  decide

theorem witness_LaunchAcceptsByItsParameters :
    (State.launch ⟨0xFFFFFFFF, .reject⟩ []).isSome = true := by decide

theorem witness_DecodeOfEncode : (Instr.li 7 0x1FFFFFF).wellFormed = true := by decide

theorem witness_EncodeOfDecode : decode 0x0FFFFE53#32 = .ok (.cmov 1 2 3) := by rfl

theorem witness_DecoderIsTotal :
    (0xDFFFFFFF#32 : Word).toNat / 2 ^ 28 ≤ 13 ∧ 14 ≤ (0xE0000000#32 : Word).toNat / 2 ^ 28 := by decide

theorem witness_UnusedBitsAreIgnored :
    (0xCFFFFE00#32 : Word).toNat / 2 ^ 28 = (0xC0000000#32 : Word).toNat / 2 ^ 28 ∧
    (0xC0000000#32 : Word).toNat / 2 ^ 28 ≤ 12 ∧
    (0xCFFFFE00#32 : Word).toNat % 2 ^ 9 = (0xC0000000#32 : Word).toNat % 2 ^ 9 ∧
    (0x7FFFFFFF#32 : Word).toNat / 2 ^ 28 = 7 ∧ (0x80000040#32 : Word).toNat / 2 ^ 28 = 8 ∧
    (0x80000040#32 : Word).toNat % 2 ^ 6 = (0x80000000#32 : Word).toNat % 2 ^ 6 ∧
    (0xB0000008#32 : Word).toNat / 2 ^ 28 = 11 ∧
    (0xB0000008#32 : Word).toNat % 2 ^ 3 = (0xB0000000#32 : Word).toNat % 2 ^ 3 := by decide

theorem witness_FieldExtractionRule : 64 ≤ 64 ∧ 64 + 0 ≤ 64 ∧ (64 < 65 ∨ 64 < 65 + 0) := by decide

theorem witness_NoCycleOutsideRunning : ({ State.reset with run := .faulted .segUnmapped } : State).run ≠ .running := by decide

theorem witness_FetchRule :
    (boot [7]).a0.read (boot [7]).pc = some 7#32 ∧ (boot []).run = .running ∧ (boot []).a0.len ≤ (boot []).pc := by decide

theorem witness_PcNeverWraps : (boot [7]).fetch = .ok (7#32, { boot [7] with pc := 1#32 }) := by rfl

theorem witness_InvalidOpcodeFaults :
    (boot [0xE0000000]).run = .running ∧ (boot [0xE0000000]).a0.read (boot [0xE0000000]).pc = some 0xE0000000#32 ∧
    14 ≤ (0xE0000000#32 : Word).toNat / 2 ^ 28 ∧
    (stateOf (step (boot [0xE0000000]))).map (·.run) = some (.faulted .invalidOpcode) := by decide

theorem witness_StepRunsDecodedInstruction :
    (boot [0x70000000]).run = .running ∧ (boot [0x70000000]).a0.read (boot [0x70000000]).pc = some 0x70000000#32 ∧
    decode 0x70000000#32 = .ok .halt := ⟨by decide, by decide, by rfl⟩

theorem boot_nextInstr {w : Word} {i : Instr} (regs : State → State) (h : decode w = .ok i)
    (hr : (regs (boot [w])).a0.read (regs (boot [w])).pc = some w) : (regs (boot [w])).nextInstr i := ⟨w, hr, h⟩

theorem witness_CycleOutcomes : (boot [0x70000000]).run = .running ∧ (boot [0xB0000003]).waiting :=
  ⟨by decide, by decide, by decide, 3, 0xB0000003#32, by decide, by rfl⟩

theorem witness_FaultingCycleIsAtomic :
    (boot [0x50000053]).run = .running ∧
    step (boot [0x50000053]) = .next { boot [0x50000053] with pc := 1#32, run := .faulted .divideByZero } := ⟨by decide, by rfl⟩

theorem witness_RunStateChanges :
    step (boot [0x70000000]) = .next { boot [0x70000000] with pc := 1#32, run := .halted } ∧
    (boot [0x70000000]).run = .running ∧ (boot [0x70000000]).nextInstr .halt :=
  ⟨by rfl, by decide, 0x70000000#32, by decide, by rfl⟩

theorem witness_FaultReasonsHaveTheirCauses :
    (boot [0x90000000]).run = .running ∧
    step (boot [0x90000000]) = .next { boot [0x90000000] with pc := 1#32, run := .faulted .segIdZero } := ⟨by decide, by rfl⟩

theorem witness_ConditionalMoveRule : (boot [] [(3, 1#32)]).x 3 ≠ 0#32 ∧ (boot []).x 3 = 0#32 := by decide

theorem witness_DivideRule : (boot [] [(3, 1#32)]).x 3 ≠ 0#32 ∧ (boot []).x 3 = 0#32 := by decide

theorem witness_LoadImmediateRule : 0x1FFFFFF < 2 ^ 25 := by decide

/-- Segment 1 has two words, register 2 holds its id, register 5 the offset. -/
def segState (o : Word) : State := { boot [7] [(2, 1#32), (5, o)] with mgr := oneSegment [0, 65] }

/-- Each clause of the load and store rules: the last word of a segment, the offset at its length, an id not mapped, A0's end. -/
theorem witness_LoadRule_StoreRule :
    (segState 1).wordAt ((segState 1).x 2) ((segState 1).x 5) = some 65#32 ∧
    ((segState 2).x 2 ≠ 0#32 ∧ (segState 2).mgr.segment ((segState 2).x 2) = some (Segment.ofWords [0, 65]) ∧
      (Segment.ofWords [0, 65]).len ≤ (segState 2).x 5) ∧
    ((segState 2).x 5 ≠ 0#32 ∧ (segState 2).mgr.isMapped ((segState 2).x 5) = false) ∧
    ((segState 1).x 0 = 0#32 ∧ (segState 1).a0.len ≤ (segState 1).x 5) ∧
    storeAddr 2 5 (segState 1) = (1#32, 1#32) ∧ storeAddr 0 1 (segState 1) = (0#32, 0#32) ∧
    (segState 1).wordAt 0#32 0#32 = some 7#32 := by decide

theorem witness_StoreThenLoadReturnsValue :
    (segState 1).run = .running ∧ (stateOf (exec (.store 2 5 2) (segState 1))).map (·.run) = some .running := by decide

theorem witness_StoredWordIsExecuted :
    (boot [7]).run = .running ∧ (boot [7]).x 0 = 0#32 ∧ (boot [7]).x 1 < (boot [7]).a0.len ∧
    (stateOf (exec (.store 0 1 2) (boot [7]))).isSome = true ∧ decode ((boot [7]).x 2) = .ok (.cmov 0 0 0) :=
  ⟨by decide, by decide, by decide, by decide, by rfl⟩

theorem witness_LoadProgramRule :
    (segState 1).x 0 = 0#32 ∧
    ((segState 1).x 2 ≠ 0#32 ∧ (segState 1).mgr.segment ((segState 1).x 2) = some (Segment.ofWords [0, 65])) ∧
    ((segState 2).x 5 ≠ 0#32 ∧ (segState 2).mgr.isMapped ((segState 2).x 5) = false) := by decide

/-- LOADP r2, r0 with segment 1 = [HALT] (section 2.4). -/
def loadpState : State := { boot [0xC0000010] [(2, 1#32)] with mgr := oneSegment [0x70000000] }

theorem witness_ReplacedProgramIsFetched :
    loadpState.run = .running ∧ loadpState.nextInstr (.loadp 2 0) ∧ loadpState.x 2 ≠ 0#32 ∧
    loadpState.mgr.segment (loadpState.x 2) = some (Segment.ofWords [0x70000000]) ∧
    (Segment.ofWords [0x70000000]).read (loadpState.x 0) = some 0x70000000#32 :=
  ⟨by decide, ⟨0xC0000010#32, by decide, by rfl⟩, by decide, by decide, by decide⟩

theorem witness_InstalledCopyIsIndependent :
    (stateOf (exec (.loadp 2 0) loadpState)).isSome = true ∧ (stateOf (exec (.store 2 5 2) (segState 1))).isSome = true ∧
    (segState 1).x 2 ≠ 0#32 ∧ (stateOf (exec (.unmap 2) (segState 1))).isSome = true ∧
    (stateOf (exec (.store 0 1 2) (boot [7]))).isSome = true ∧ (boot [7]).x 0 = 0#32 := by decide

/-- A Running state for each of the four outcomes: the fetch of an empty A0 (R121), a waiting IN (R191), `LOADP r0, r5` with
`x[5] = 4` (the example of R171), and the word 0, after which `pc` is 1 (R172). -/
theorem witness_PcAfterCycle :
    ((boot []).run = .running ∧ (boot []).a0.len ≤ (boot []).pc ∧ after (boot []) (·.pc) = some 0#32) ∧
    ((boot [0xB0000003]).waiting ∧ after (boot [0xB0000003]) (·.pc) = some 0#32) ∧
    ((boot [0xC0000005] [(5, 4)]).nextInstr (.loadp 0 5) ∧
      after (boot [0xC0000005] [(5, 4)]) (fun t => (t.run, t.pc)) = some (.running, 4#32)) ∧
    ((boot [0x00000000]).run = .running ∧ (boot [0x00000000]).pc < (boot [0x00000000]).a0.len ∧
      (boot [0x00000000]).nextInstr (.cmov 0 0 0) ∧ after (boot [0x00000000]) (·.pc) = some 1#32) :=
  ⟨⟨by decide, by decide, by decide⟩, ⟨⟨by decide, by decide, 3, 0xB0000003#32, by decide, by rfl⟩, by decide⟩,
    ⟨⟨0xC0000005#32, by decide, by rfl⟩, by decide⟩,
    ⟨by decide, by decide, ⟨0x00000000#32, by decide, by rfl⟩, by decide⟩⟩

/-- LOADP r0, r0 at offset 0 jumps to itself (R222). -/
theorem witness_HangsNeverStop :
    (boot [0xC0000000]).run = .running ∧ (boot [0xC0000000]).nextInstr (.loadp 0 0) ∧ (boot [0xC0000000]).x 0 = 0#32 ∧
    (boot [0xC0000000]).x 0 = (boot [0xC0000000]).pc ∧ (boot [0xB0000003]).waiting :=
  ⟨by decide, ⟨0xC0000000#32, by decide, by rfl⟩, by decide, by decide, by decide, by decide, 3, 0xB0000003#32,
    by decide, by rfl⟩

/-- Each clause of the map rule: an allowed request with a free id, with none, at the last id, at exhaustion, and a denied one. -/
theorem witness_MapRule :
    (State.reset.canAllocate 5#32 = true ∧ State.reset.mgr.freeIds = [] ∧ State.reset.mgr.nextUnusedId < 2 ^ 32 ∧
      (1#32 : Word).toNat = State.reset.mgr.nextUnusedId) ∧
    (({ State.reset with mgr := { nextUnusedId := 2, freeIds := [1], segments := [] } } : State).canAllocate 0#32 = true) ∧
    (({ State.reset with mgr := { nextUnusedId := 2 ^ 32 - 1, freeIds := [], segments := [] } } : State).mgr.nextUnusedId <
      2 ^ 32 ∧ (0xFFFFFFFF#32 : Word).toNat = 2 ^ 32 - 1) ∧
    (({ State.reset with mgr := { nextUnusedId := 2 ^ 32, freeIds := [], segments := [] } } : State).mgr.nextUnusedId = 2 ^ 32) ∧
    (({ State.reset with allocDenied := [(SegMgr.new, 5#32)] } : State).canAllocate 5#32 = false) := by decide

theorem witness_MapGivesFreshId_LifoReuse :
    (boot [0x80000013]).Inv ∧ (boot [0x80000013]).run = .running ∧
    (stateOf (exec (.map 2 3) (boot [0x80000013]))).map (·.run) = some .running ∧
    ((stateOf (exec (.map 2 3) (boot [0x80000013]))).bind fun t => (stateOf (exec (.unmap 2) t)).map (·.canAllocate 0)) =
      some true :=
  ⟨boot_inv _ (by decide), by decide, by decide, by decide⟩

theorem witness_UnmapRule :
    ((segState 1).x 2 ≠ 0#32 ∧ (segState 1).mgr.isMapped ((segState 1).x 2) = true) ∧ (segState 1).x 0 = 0#32 ∧
    ((segState 2).x 5 ≠ 0#32 ∧ (segState 2).mgr.isMapped ((segState 2).x 5) = false) := by decide

theorem witness_MappedIffLastEventIsMap :
    SegMgr.new.replay [] [.map true 3, .unmap 1, .map true 0] =
      .ok (⟨2, [], [(1, Segment.zeros 0)]⟩, [(1, true), (1, false), (1, true)]) := by rfl

theorem witness_OutputRule :
    ((boot [] [(1, 255#32)]).x 1).toNat ≤ 255 ∧ 255 < ((boot [] [(1, 256#32)]).x 1).toNat := by decide

theorem witness_InputRule :
    (State.reset.respond (.byte 65)).input = [.byte 65] ∧ (State.reset.respond .eof).input = [.eof] ∧
    (boot [0xB0000003]).run = .running ∧ (boot [0xB0000003]).nextInstr (.inp 3) ∧ (boot [0xB0000003]).input = [] :=
  ⟨by decide, by decide, by decide, ⟨0xB0000003#32, by decide, by rfl⟩, by decide⟩

theorem witness_OutputLogOnlyGrows_ActiveSegmentChanges :
    step (boot [0xA0000000]) = .next { boot [0xA0000000] with pc := 1#32, output := [0] } := by rfl

/-- `IN r3` takes the first of two responses, and a host that denies a request is the same host after the step. -/
theorem witness_ResponsesAreConsumedInOrder :
    let s : State := { boot [0xB0000003] with input := [.byte 65, .eof], allocDenied := [(SegMgr.new, 5#32)] }
    s.run = .running ∧ s.nextInstr (.inp 3) ∧
    after s (fun t => (t.input, t.x 3, t.allocDenied)) = some ([.eof], 65#32, [(SegMgr.new, 5#32)]) :=
  ⟨by decide, ⟨0xB0000003#32, by decide, by rfl⟩, by decide⟩

theorem witness_RegistersWritten :
    (stateOf (exec (.li 1 72) State.reset)).map (fun t => decide (t.x 1 ≠ State.reset.x 1)) = some true := by decide

theorem witness_UnreadRegistersDoNotMatter :
    (1 : RegIdx) ∉ readRegs (.add 1 2 3) ∧ (stateOf (exec (.add 1 2 3) State.reset)).isSome = true := by decide

theorem witness_MemoryUntouchedByOtherInstructions :
    (stateOf (exec (.load 6 2 5) (segState 1))).isSome = true ∧ (∀ a b c, Instr.load 6 2 5 ≠ .store a b c) ∧
    (∀ b c, Instr.load 6 2 5 ≠ .map b c) ∧ (∀ c, Instr.load 6 2 5 ≠ .unmap c) ∧ ∀ b c, Instr.load 6 2 5 ≠ .loadp b c :=
  ⟨by decide, by simp, by simp, by simp, by simp⟩

theorem witness_StepKeepsInvariant :
    (boot [0x80000013]).Inv ∧ (stateOf (step (boot [0x80000013]))).isSome = true := ⟨boot_inv _ (by decide), by decide⟩

/-- A manager that meets the invariant, on which `map`, `unmap` and `set` complete and `free` has something to release. -/
theorem witness_ManagerOperationsKeepInvariant :
    SegMgr.new.map true 2#32 = .ok (1#32, oneSegment [0, 0]) ∧ (oneSegment [0, 0]).Inv ∧
    (oneSegment [0, 0]).map true 3#32 = .ok (2#32, ⟨3, [], [(1, Segment.zeros 2), (2, Segment.zeros 3)]⟩) ∧
    (oneSegment [0, 0]).unmap 1#32 = .ok ⟨2, [1#32], []⟩ ∧ (oneSegment [0, 0]).set 1#32 1#32 65#32 = .ok (oneSegment [0, 65]) ∧
    (oneSegment [0, 0]).isMapped 1#32 = true ∧ (oneSegment [0, 0]).free.isMapped 1#32 = false :=
  ⟨by rfl, SegMgr.map_inv (al := true) (size := 2#32) (id := 1#32) SegMgr.new_inv (by rfl),
    by rfl, by rfl, by rfl, by decide, by decide⟩

theorem witness_InvariantHoldsAtReset : (State.launchWords ⟨2, .reject⟩ [1, 2]).isSome = true := by decide

theorem witness_EqualMemoriesAreEqualData :
    Memory.wf (segState 1) ∧ ∀ e ∈ (segState 1).mgr.segments, 1 ≤ e.1 ∧ e.1 < 2 ^ 32 := by decide

end Sys2Proof.Tests
end

section
/-! PROOFS. The statements about the state (10_state.md): launch, the run state, which instruction may change which register,
what has an influence on the effect, how memory changes, and the invariant of R33. -/

namespace Sys2Proof.Machine

/-! ## The segment manager: I2 and I4 of R33 from the invariant -/

/-- I2: under the invariant the bitmap decides what is mapped, below the high-water mark only. -/
theorem SegMgr.Inv.isMapped_iff_bitmap {m : SegMgr} (I : m.Inv) (id : Word) :
    m.isMapped id = true ↔ id.toNat < m.nextUnusedId ∧ m.mappedBitmap id.toNat = true := by
  refine ⟨fun h => ⟨?_, h⟩, fun h => h.2⟩
  obtain ⟨g, hg⟩ := SegMgr.isMapped_iff.1 h
  exact (I.mapped_range _ (Assoc.mem_of_lookup hg)).2

/-- Under the invariant `map` gives an id that was not mapped: a free one (I3), or the high-water mark (I2). -/
theorem SegMgr.Inv.map_unmapped {m m' : SegMgr} {al : Bool} {size id : Word} (I : m.Inv)
    (h : m.map al size = .ok (id, m')) : m.segment id = none := by
  obtain ⟨-, ⟨rest, hfree, -, -⟩ | ⟨-, -, hid, -, -⟩, -⟩ := SegMgr.map_spec h
  · exact SegMgr.not_isMapped_iff.1 (I.free_unmapped id (by simp [hfree]))
  · by_contra hmapped
    obtain ⟨g, hg⟩ := Option.ne_none_iff_exists'.1 hmapped
    have := (I.mapped_range _ (Assoc.mem_of_lookup hg)).2
    omega

/-- I4: a segment mapped in both managers has one length. -/
def SegMgr.SameLengths (m m' : SegMgr) : Prop :=
  ∀ (j : Word) (g g' : Segment), m.segment j = some g → m'.segment j = some g' → g'.len = g.len

/-- A segment that is the same segment in both managers has one length. -/
theorem SegMgr.sameLengths_of_segment {m m' : SegMgr}
    (h : ∀ j g g', m.segment j = some g → m'.segment j = some g' → m'.segment j = m.segment j) : m.SameLengths m' := by
  intro j g g' hg hg'
  have hsame := h j g g' hg hg'
  rw [hg, hg'] at hsame
  exact congrArg Segment.len (Option.some.inj hsame)

/-- A call of the manager that changes it, completed: `map`, `unmap` or `set` takes `m` to `m'` (R56, R58, R61). -/
def SegMgr.Changes (m m' : SegMgr) : Prop :=
  (∃ al size id, m.map al size = .ok (id, m')) ∨ (∃ id, m.unmap id = .ok m') ∨ ∃ id o v, m.set id o v = .ok m'

theorem SegMgr.Changes.inv {m m' : SegMgr} (h : m.Changes m') (I : m.Inv) : m'.Inv := by
  obtain ⟨al, size, id, h⟩ | ⟨id, h⟩ | ⟨id, o, v, h⟩ := h
  · exact SegMgr.map_inv I h
  · exact SegMgr.unmap_inv I h
  · exact (SegMgr.set_inv I h).1

theorem SegMgr.Changes.sameLengths {m m' : SegMgr} (h : m.Changes m') (I : m.Inv) : m.SameLengths m' := by
  obtain ⟨al, size, id, h⟩ | ⟨id, h⟩ | ⟨id, o, v, h⟩ := h
  · refine SegMgr.sameLengths_of_segment fun j g g' hg hg' => ?_
    have hne : j ≠ id := by
      rintro rfl
      simp [I.map_unmapped h] at hg
    simp [SegMgr.map_segment h, hne]
  · refine SegMgr.sameLengths_of_segment fun j g g' hg hg' => ?_
    have hne : j ≠ id := by
      rintro rfl
      simp [SegMgr.unmap_segment h] at hg'
    simp [SegMgr.unmap_segment h, hne]
  · exact (SegMgr.set_inv I h).2

/-! ## What an instruction and a step can do to memory -/

/-- The two ways a store completes: a write in A0, or a `set` of the segment manager (R65). -/
theorem State.memWrite_cases {s t : State} {id o v : Word} (h : s.memWrite id o v = .ok t) :
    (id = 0#32 ∧ ∃ g, s.a0.write o v = some g ∧ t = { s with a0 := g }) ∨
      (id ≠ 0#32 ∧ ∃ m, s.mgr.set id o v = .ok m ∧ t = { s with mgr := m }) := by
  unfold State.memWrite at h
  split_ifs at h with h0
  · cases hw : s.a0.write o v with
    | none => simp [hw] at h
    | some g => exact .inl ⟨h0, g, rfl, by simpa [hw] using h.symm⟩
  · cases hm : s.mgr.set id o v with
    | error r => simp [hm, Except.map] at h
    | ok m => exact .inr ⟨h0, m, rfl, by simpa [hm, Except.map] using h.symm⟩

/-- What an instruction run in `s` does to the memory of `t`: nothing, or the one effect of its opcode (R31, R67). -/
inductive MemEffect (s t : State) : Instr → Prop
  | unchanged {i : Instr} (ha0 : t.a0 = s.a0) (hmgr : t.mgr = s.mgr) : MemEffect s t i
  | storeA0 {a b c : RegIdx} (hid : s.x a = 0#32) (hwrite : s.a0.write (s.x b) (s.x c) = some t.a0)
      (hmgr : t.mgr = s.mgr) : MemEffect s t (.store a b c)
  | storeSegment {a b c : RegIdx} (ha0 : t.a0 = s.a0) (hset : s.mgr.set (s.x a) (s.x b) (s.x c) = .ok t.mgr) :
      MemEffect s t (.store a b c)
  | map {b c : RegIdx} {id : Word} (ha0 : t.a0 = s.a0)
      (hmap : s.mgr.map (s.canAllocate (s.x c)) (s.x c) = .ok (id, t.mgr)) : MemEffect s t (.map b c)
  | unmap {c : RegIdx} (ha0 : t.a0 = s.a0) (hunmap : s.mgr.unmap (s.x c) = .ok t.mgr) : MemEffect s t (.unmap c)
  | replace {b c : RegIdx} (hid : s.x b ≠ 0#32) (hseg : s.mgr.segment (s.x b) = some t.a0) (hmgr : t.mgr = s.mgr) :
      MemEffect s t (.loadp b c)

/-- Everything an instruction can do to memory. -/
theorem exec_memEffect {i : Instr} {s t : State} (h : exec i s = .next t) : MemEffect s t i := by
  cases i with
  | cmov a b c => obtain ⟨-, rfl⟩ | ⟨-, rfl⟩ := execCmov_next h <;> exact .unchanged rfl rfl
  | load a b c => obtain ⟨v, -, rfl⟩ | ⟨r, -, rfl⟩ := execLoad_next h <;> exact .unchanged rfl rfl
  | store a b c =>
    obtain hw | ⟨r, -, rfl⟩ := execStore_next h
    · obtain ⟨h0, g, hg, rfl⟩ | ⟨-, m, hm, rfl⟩ := State.memWrite_cases hw
      · exact .storeA0 h0 hg rfl
      · exact .storeSegment rfl hm
    · exact .unchanged rfl rfl
  | add a b c => obtain rfl := execAdd_next h; exact .unchanged rfl rfl
  | mul a b c => obtain rfl := execMul_next h; exact .unchanged rfl rfl
  | div a b c => obtain ⟨-, rfl⟩ | ⟨-, rfl⟩ := execDiv_next h <;> exact .unchanged rfl rfl
  | nand a b c => obtain rfl := execNand_next h; exact .unchanged rfl rfl
  | halt => obtain rfl := execHalt_next h; exact .unchanged rfl rfl
  | map b c =>
    obtain ⟨id, m, hm, rfl⟩ | ⟨-, rfl⟩ := execMap_next h
    · exact .map rfl hm
    · exact .unchanged rfl rfl
  | unmap c =>
    obtain ⟨m, hm, rfl⟩ | ⟨r, -, rfl⟩ := execUnmap_next h
    · exact .unmap rfl hm
    · exact .unchanged rfl rfl
  | out c => obtain ⟨-, rfl⟩ | ⟨-, rfl⟩ := execOut_next h <;> exact .unchanged rfl rfl
  | inp c => obtain ⟨r, rest, -, rfl⟩ | ⟨-, rfl⟩ := execIn_next h <;> exact .unchanged rfl rfl
  | loadp b c =>
    obtain ⟨-, rfl⟩ | ⟨hb, g, hg, rfl⟩ | ⟨-, -, rfl⟩ := execLoadp_next h
    · exact .unchanged rfl rfl
    · exact .replace hb hg rfl
    · exact .unchanged rfl rfl
  | li a imm => obtain rfl := execLi_next h; exact .unchanged rfl rfl

/-- The fetch before an instruction is no part of its effect on memory: no rule of an effect reads `pc`. -/
theorem MemEffect.of_fetched {s t : State} {p : Word} {i : Instr} (h : MemEffect { s with pc := p } t i) :
    MemEffect s t i := by
  cases h with
  | unchanged ha0 hmgr => exact .unchanged ha0 hmgr
  | storeA0 hid hwrite hmgr => exact .storeA0 hid hwrite hmgr
  | storeSegment ha0 hset => exact .storeSegment ha0 hset
  | map ha0 hmap => exact .map ha0 hmap
  | unmap ha0 hunmap => exact .unmap ha0 hunmap
  | replace hid hseg hmgr => exact .replace hid hseg hmgr

/-- A step leaves memory alone or has the effect of the instruction it executes. -/
theorem step_memEffect {s t : State} (h : step s = .next t) :
    (t.a0 = s.a0 ∧ t.mgr = s.mgr) ∨ ∃ i, s.nextInstr i ∧ MemEffect s t i := by
  obtain ⟨-, rfl⟩ | ⟨-, -, rfl⟩ | ⟨-, w, -, -, rfl⟩ | ⟨-, i, hi, he⟩ := step_cases h
  · exact .inl ⟨rfl, rfl⟩
  · exact .inl ⟨rfl, rfl⟩
  · exact .inl ⟨rfl, rfl⟩
  · exact .inr ⟨i, hi, (exec_memEffect he).of_fetched⟩

/-- The segment manager changes by its own calls only. -/
theorem MemEffect.mgr_changes {s t : State} {i : Instr} (h : MemEffect s t i) :
    t.mgr = s.mgr ∨ s.mgr.Changes t.mgr := by
  cases h with
  | unchanged _ hmgr => exact .inl hmgr
  | storeA0 _ _ hmgr => exact .inl hmgr
  | storeSegment _ hset => exact .inr (.inr (.inr ⟨_, _, _, hset⟩))
  | map _ hmap => exact .inr (.inl ⟨_, _, _, hmap⟩)
  | unmap _ hunmap => exact .inr (.inr (.inl ⟨_, hunmap⟩))
  | replace _ _ hmgr => exact .inl hmgr

/-- A0 stays in canonical form: a word is written in it, or a live segment's contents replace it. -/
theorem MemEffect.a0_wf {s t : State} {i : Instr} (h : MemEffect s t i) (I : s.Inv) : t.a0.wf := by
  cases h with
  | unchanged ha0 _ => exact ha0 ▸ I.a0_wf
  | storeA0 _ hwrite _ => exact Segment.write_wf I.a0_wf hwrite
  | storeSegment ha0 _ => exact ha0 ▸ I.a0_wf
  | map ha0 _ => exact ha0 ▸ I.a0_wf
  | unmap ha0 _ => exact ha0 ▸ I.a0_wf
  | replace _ hseg _ => exact SegMgr.segment_wf I.mgr_inv.segments_wf hseg

theorem step_a0_wf {s t : State} (h : step s = .next t) (I : s.Inv) : t.a0.wf := by
  obtain ⟨ha0, -⟩ | ⟨i, -, he⟩ := step_memEffect h
  · exact ha0 ▸ I.a0_wf
  · exact he.a0_wf I

theorem step_mgr_changes {s t : State} (h : step s = .next t) : t.mgr = s.mgr ∨ s.mgr.Changes t.mgr := by
  obtain ⟨-, hmgr⟩ | ⟨i, -, he⟩ := step_memEffect h
  · exact .inl hmgr
  · exact he.mgr_changes

/-- A step keeps the manager's invariant, and the length of every segment mapped before and after it (I4). -/
theorem step_mgr_inv {s t : State} (h : step s = .next t) (I : s.Inv) : t.mgr.Inv ∧ s.mgr.SameLengths t.mgr := by
  obtain hmgr | hchg := step_mgr_changes h
  · rw [hmgr]
    exact ⟨I.mgr_inv, SegMgr.sameLengths_of_segment fun _ _ _ _ _ => rfl⟩
  · exact ⟨hchg.inv I.mgr_inv, hchg.sameLengths I.mgr_inv⟩

/-- Settles O52, by what a step can do to memory and by the manager's own calls. -/
theorem stepKeepsInvariant : Obligations.StepKeepsInvariant := by
  intro s t I h
  obtain ⟨hinv, hlen⟩ := step_mgr_inv h I
  exact ⟨⟨step_a0_wf h I, hinv⟩, hinv.isMapped_iff_bitmap, hlen⟩

/-- Settles O53, by the three calls that change a manager, and `free` as a new manager. -/
theorem managerOperationsKeepInvariant : Obligations.ManagerOperationsKeepInvariant := by
  refine ⟨SegMgr.new_inv, fun m I => ⟨fun m' (h : m.Changes m') => ?_, ?_⟩⟩
  · exact ⟨h.inv I, (h.inv I).isMapped_iff_bitmap, h.sameLengths I⟩
  · rw [SegMgr.free_spec]
    exact ⟨SegMgr.new_inv, rfl, fun id => ⟨rfl, rfl⟩⟩

/-- Settles O51: of the effects on memory, only a store to id 0 and a replacement reach A0. -/
theorem activeSegmentChanges : Obligations.ActiveSegmentChanges := by
  intro s t h
  obtain ⟨ha0, -⟩ | ⟨i, hi, he⟩ := step_memEffect h
  · exact .inl ha0
  cases he with
  | unchanged ha0 _ => exact .inl ha0
  | @storeA0 a b c hid hwrite _ =>
    obtain ⟨-, hlen, hread⟩ := Segment.write_spec hwrite
    exact .inr (.inl ⟨a, b, c, hi, hid, hlen, hread⟩)
  | storeSegment ha0 _ => exact .inl ha0
  | map ha0 _ => exact .inl ha0
  | unmap ha0 _ => exact .inl ha0
  | @replace b c hid hseg _ => exact .inr (.inr ⟨b, c, hi, hid, hseg⟩)

/-! ## Launch -/

/-- Everything a launch does: within MAX_IMAGE_WORDS it gives the reset state with the image in A0. -/
theorem State.launchWords_eq_some {cfg : LaunchConfig} {image : List Word} {s : State} :
    State.launchWords cfg image = some s ↔
      image.length ≤ cfg.maxImageWords.toNat ∧ s = { State.reset with a0 := Segment.ofWords image } := by
  simp [State.launchWords, eq_comm]

/-- A segment made of a list a 32-bit length can count has that length. -/
theorem Segment.ofWords_len {ws : List Word} (h : ws.length < 2 ^ 32) : (Segment.ofWords ws).len.toNat = ws.length :=
  (BitVec.toNat_ofNat ..).trans (Nat.mod_eq_of_lt h)

theorem State.reset_x (k : RegIdx) : State.reset.x k = 0#32 := by
  simp [State.x, State.reset]

/-- Settles O1: A0 is the image's segment, everything else is the reset constant. -/
theorem launchGivesResetValues : Obligations.LaunchGivesResetValues := by
  intro cfg image hle
  have hlt : image.length < 2 ^ 32 := Nat.lt_of_le_of_lt hle cfg.maxImageWords.isLt
  exact ⟨_, State.launchWords_eq_some.2 ⟨hle, rfl⟩, rfl, rfl, State.reset_x, Segment.ofWords_len hlt, Segment.ofWords_read hlt,
    rfl, rfl, rfl, fun _ => rfl⟩

/-- Settles O54: a launch changes A0 only, to an image in canonical form. -/
theorem invariantHoldsAtReset : Obligations.InvariantHoldsAtReset := by
  refine ⟨⟨Segment.empty_wf, SegMgr.new_inv⟩, fun cfg image s h => ⟨(Memory.launch_wf h).1, ?_⟩⟩
  obtain ⟨-, rfl⟩ := State.launchWords_eq_some.1 h
  exact SegMgr.new_inv

/-! ## The run state -/

/-- A running instruction ends in Halted exactly when it is HALT. -/
theorem exec_halted_iff {i : Instr} {s t : State} (hrun : s.run = .running) (h : exec i s = .next t) :
    t.run = .halted ↔ i = .halt := by
  constructor
  · intro ht
    obtain hsame | ⟨hi, -⟩ | ⟨r, rfl⟩ := exec_ends h
    · simp [hsame, hrun] at ht
    · exact hi
    · simp at ht
  · rintro rfl
    rw [execHalt_next h, State.halt_run]

/-- A word whose opcode is 14 or 15 is no instruction. -/
theorem State.not_nextInstr_of_invalid {s : State} {w : Word} {i : Instr} (hw : s.a0.read s.pc = some w)
    (hop : 14 ≤ w.toNat / 2 ^ 28) : ¬ s.nextInstr i := by
  rintro ⟨w', hw', hd⟩
  obtain rfl : w = w' := Option.some.inj (hw.symm.trans hw')
  rw [decode_invalid hop] at hd
  cases hd

/-- A running cycle ends in Halted exactly when its instruction is HALT. -/
theorem step_halted_iff {s t : State} (hrun : s.run = .running) (h : step s = .next t) :
    t.run = .halted ↔ s.nextInstr .halt := by
  obtain ⟨hnot, -⟩ | ⟨-, hpc, rfl⟩ | ⟨-, w, hw, hop, rfl⟩ | ⟨-, i, hi, he⟩ := step_cases h
  · exact absurd hrun hnot
  · have : ¬ s.nextInstr .halt := fun hn => BitVec.not_le.2 (State.nextInstr_lt hn) hpc
    simp [this]
  · simp [State.not_nextInstr_of_invalid hw hop]
  · rw [exec_halted_iff (by exact hrun) he]
    exact ⟨fun hhalt => hhalt ▸ hi, State.nextInstr_unique hi⟩

/-- Outside Running no cycle runs (R120). -/
theorem step_of_not_running {s t : State} (hrun : s.run ≠ .running) (h : step s = .next t) : t = s := by
  obtain ⟨-, rfl⟩ | ⟨hr, -⟩ | ⟨hr, -⟩ | ⟨hr, -⟩ := step_cases h
  · rfl
  all_goals exact absurd hr hrun

/-- Settles O17: a running cycle ends in Halted by HALT alone, and no other run state has a cycle. -/
theorem runStateChanges : Obligations.RunStateChanges := by
  intro s t h
  refine ⟨fun hrun => (step_halted_iff hrun h).1, fun hrun => (step_halted_iff hrun h).2, fun hrun => ?_, fun r hrun => ?_⟩
  all_goals rwa [step_of_not_running (by simp [hrun]) h]

/-! ## The registers an instruction writes -/

/-- A register write changes no other register. -/
theorem State.eq_of_writeReg_x_ne {s : State} {a k : RegIdx} {v : Word} (h : (s.writeReg a v).x k ≠ s.x k) : k = a := by
  by_contra hk
  exact h (State.writeReg_x_ne s a k v hk)

/-- A store changes no register. -/
theorem State.memWrite_x {s t : State} {id o v : Word} (h : s.memWrite id o v = .ok t) (k : RegIdx) : t.x k = s.x k := by
  obtain ⟨-, g, -, rfl⟩ | ⟨-, m, -, rfl⟩ := State.memWrite_cases h <;> rfl

/-- Settles O48: what each opcode can answer, with the register write of R23 or none. -/
theorem registersWritten : Obligations.RegistersWritten := by
  intro i s t h k hk
  cases i with
  | cmov a b c =>
    obtain ⟨hc, rfl⟩ | ⟨-, rfl⟩ := execCmov_next h
    · exact ⟨State.eq_of_writeReg_x_ne hk, hc⟩
    · exact absurd rfl hk
  | load a b c =>
    obtain ⟨v, -, rfl⟩ | ⟨r, -, rfl⟩ := execLoad_next h
    · exact State.eq_of_writeReg_x_ne hk
    · exact absurd rfl hk
  | store a b c =>
    obtain hw | ⟨r, -, rfl⟩ := execStore_next h
    · exact hk (State.memWrite_x hw k)
    · exact hk rfl
  | add a b c => exact State.eq_of_writeReg_x_ne (execAdd_next h ▸ hk)
  | mul a b c => exact State.eq_of_writeReg_x_ne (execMul_next h ▸ hk)
  | div a b c =>
    obtain ⟨-, rfl⟩ | ⟨-, rfl⟩ := execDiv_next h
    · exact State.eq_of_writeReg_x_ne hk
    · exact absurd rfl hk
  | nand a b c => exact State.eq_of_writeReg_x_ne (execNand_next h ▸ hk)
  | halt => exact hk (by rw [execHalt_next h, State.halt_x])
  | map b c =>
    obtain ⟨id, m, -, rfl⟩ | ⟨-, rfl⟩ := execMap_next h
    · exact State.eq_of_writeReg_x_ne hk
    · exact absurd rfl hk
  | unmap c => obtain ⟨m, -, rfl⟩ | ⟨r, -, rfl⟩ := execUnmap_next h <;> exact hk rfl
  | out c => obtain ⟨-, rfl⟩ | ⟨-, rfl⟩ := execOut_next h <;> exact hk rfl
  | inp c =>
    obtain ⟨r, rest, -, rfl⟩ | ⟨-, rfl⟩ := execIn_next h
    · exact State.eq_of_writeReg_x_ne hk
    · exact absurd rfl hk
  | loadp b c => obtain ⟨-, rfl⟩ | ⟨-, g, -, rfl⟩ | ⟨-, -, rfl⟩ := execLoadp_next h <;> exact hk rfl
  | li a imm => exact State.eq_of_writeReg_x_ne (execLi_next h ▸ hk)

/-! ## The registers an instruction reads -/

section Unread
variable {s t : State} {k : RegIdx} {v : Word}

/-- Two states that agree but at `k` still do after the same register write. -/
theorem State.writeReg_comm_only (s : State) (a k : RegIdx) (v w : Word) :
    OnlyRegChanges k (s.writeReg a w) ((s.writeReg k v).writeReg a w) :=
  ⟨⟨rfl, rfl, rfl, rfl, rfl, rfl, rfl⟩, fun j hj => by simp only [State.writeReg_x, if_neg hj]⟩

/-- Instructions that compute the same `e` in both states, and finish it in states that agree but at `k`, have outcomes
that agree but at `k`: a fault leaves the state it began with. -/
theorem State.settle_map_only {α : Type} {e : Except Fault α} {f f' : α → State}
    (hf : ∀ a, OnlyRegChanges k (f a) (f' a)) (h : s.settle (e.map f) = .next t) :
    ∃ t', (s.writeReg k v).settle (e.map f') = .next t' ∧ OnlyRegChanges k t t' := by
  cases e with
  | ok a =>
    obtain rfl := Host.Outcome.next.inj h
    exact ⟨f' a, rfl, hf a⟩
  | error r =>
    obtain rfl := Host.Outcome.next.inj h
    exact ⟨(s.raise r).writeReg k v, rfl, State.writeReg_only _ k v⟩

/-- `State.settle_map_only` for an instruction that always completes. -/
theorem State.settle_ok_only {u u' : State} (hu : OnlyRegChanges k u u') (h : s.settle (.ok u) = .next t) :
    ∃ t', (s.writeReg k v).settle (.ok u') = .next t' ∧ OnlyRegChanges k t t' := by
  obtain rfl := Host.Outcome.next.inj h
  exact ⟨u', rfl, hu⟩

theorem State.memRead_writeReg (id o : Word) : (s.writeReg k v).memRead id o = s.memRead id o := rfl

theorem State.canAllocate_writeReg (size : Word) : (s.writeReg k v).canAllocate size = s.canAllocate size := rfl

/-- A store and a register write do not meet. -/
theorem State.memWrite_writeReg (id o w : Word) :
    (s.writeReg k v).memWrite id o w = (s.memWrite id o w).map fun u => u.writeReg k v := by
  unfold State.memWrite
  split_ifs
  · rw [State.writeReg_a0]
    cases s.a0.write o w <;> rfl
  · rw [State.writeReg_mgr]
    cases s.mgr.set id o w <;> rfl

/-- An output and a register write do not meet. -/
theorem State.outWrite_writeReg (w : Word) :
    (s.writeReg k v).outWrite w = (s.outWrite w).map fun u => u.writeReg k v := by
  unfold State.outWrite
  split_ifs <;> rfl

/-- `State.settle_map_only` for an operation that does not meet the register write. -/
theorem State.settle_commutes_only {e : Except Fault State} (h : s.settle e = .next t) :
    ∃ t', (s.writeReg k v).settle (e.map fun u => u.writeReg k v) = .next t' ∧ OnlyRegChanges k t t' :=
  State.settle_map_only (f := id) (fun u => State.writeReg_only u k v) (by cases e <;> exact h)

/-- Every meaning reads its operands through `readRegs` alone: after a write to any other register it computes the same
values, and its result differs in that register at most. -/
theorem exec_writeReg_of_unread {i : Instr} (hk : k ∉ readRegs i) (h : exec i s = .next t) :
    ∃ t', exec i (s.writeReg k v) = .next t' ∧ OnlyRegChanges k t t' := by
  have hread : ∀ j ∈ readRegs i, (s.writeReg k v).x j = s.x j := fun j hj =>
    State.writeReg_x_ne s k j v fun hjk => hk (hjk ▸ hj)
  clear hk
  cases i <;> simp only [readRegs, List.forall_mem_cons] at hread
  case cmov a b c =>
    simp only [exec, execCmov, hread] at h ⊢
    split_ifs at h ⊢
    · exact State.settle_ok_only (State.writeReg_comm_only s a k v _) h
    · exact State.settle_ok_only (State.writeReg_only s k v) h
  case load a b c =>
    simp only [exec, execLoad, loadAddr, hread, State.memRead_writeReg] at h ⊢
    exact State.settle_map_only (State.writeReg_comm_only s a k v) h
  case store a b c =>
    simp only [exec, execStore, storeAddr, hread, State.memWrite_writeReg] at h ⊢
    exact State.settle_commutes_only h
  case add a b c =>
    simp only [exec, execAdd, hread] at h ⊢
    exact State.settle_ok_only (State.writeReg_comm_only s a k v _) h
  case mul a b c =>
    simp only [exec, execMul, hread] at h ⊢
    exact State.settle_ok_only (State.writeReg_comm_only s a k v _) h
  case div a b c =>
    simp only [exec, execDiv, hread] at h ⊢
    exact State.settle_map_only (State.writeReg_comm_only s a k v) h
  case nand a b c =>
    simp only [exec, execNand, hread] at h ⊢
    exact State.settle_ok_only (State.writeReg_comm_only s a k v _) h
  case halt =>
    simp only [exec, execHalt] at h ⊢
    exact State.settle_ok_only (State.writeReg_only s.halt k v) h
  case map b c =>
    simp only [exec, execMap, hread, State.canAllocate_writeReg, State.writeReg_mgr] at h ⊢
    exact State.settle_map_only (fun r => State.writeReg_comm_only { s with mgr := r.2 } b k v r.1) h
  case unmap c =>
    simp only [exec, execUnmap, hread, State.writeReg_mgr] at h ⊢
    exact State.settle_map_only (fun m => State.writeReg_only { s with mgr := m } k v) h
  case out c =>
    simp only [exec, execOut, hread, State.outWrite_writeReg] at h ⊢
    exact State.settle_commutes_only h
  case inp c =>
    simp only [exec, execIn, State.writeReg_input] at h ⊢
    split at h
    · obtain rfl := Host.Outcome.next.inj h
      exact ⟨_, rfl, State.writeReg_only s.holdCycle k v⟩
    · exact State.settle_ok_only (State.writeReg_comm_only { s with input := _ } c k v _) h
  case loadp b c =>
    simp only [exec, execLoadp, hread, State.writeReg_mgr] at h ⊢
    split_ifs at h ⊢
    · exact State.settle_map_only (fun g => State.writeReg_only ((s.replaceA0 g).jump (s.x c)) k v) h
    · exact State.settle_ok_only (State.writeReg_only (s.jump (s.x c)) k v) h
  case li a imm =>
    simp only [exec, execLi] at h ⊢
    exact State.settle_ok_only (State.writeReg_comm_only s a k v _) h

end Unread

/-- Settles O49: the change of an unread register passes through every meaning, up to that register. -/
theorem unreadRegistersDoNotMatter : Obligations.UnreadRegistersDoNotMatter := fun _ _ _ _ _ hk h =>
  exec_writeReg_of_unread hk h

end Sys2Proof.Machine
end

section
/-! PROOFS. The statements about memory (20_memory.md): the image file, A0 as program and as data, the segment manager's
allocation, and the frame of the instructions that touch no segment. -/

namespace Sys2Proof

/-! ## The image file (R50) -/

theorem wordOfBytes_toNat (b0 b1 b2 b3 : Byte) :
    (wordOfBytes b0 b1 b2 b3).toNat = b0.toNat * 2 ^ 24 + b1.toNat * 2 ^ 16 + b2.toNat * 2 ^ 8 + b3.toNat := by
  simp only [wordOfBytes, BitVec.toNat_ofNat]
  omega

/-- Bytes that begin with no whole word are fewer than four. -/
theorem length_lt_four_of_no_word {file : List Byte} (h : ∀ b0 b1 b2 b3 rest, file = b0 :: b1 :: b2 :: b3 :: rest → False) :
    file.length < 4 := by
  match file, h with
  | [], _ | [_], _ | [_, _], _ | [_, _, _], _ => simp
  | b0 :: b1 :: b2 :: b3 :: rest, h => exact (h b0 b1 b2 b3 rest rfl).elim

theorem imageWords_length (file : List Byte) : (imageWords file).length = file.length / 4 := by
  induction file using imageWords.induct with
  | case1 b0 b1 b2 b3 rest ih =>
    simp only [imageWords, List.length_cons, ih]
    omega
  | case2 file hshort => simp [imageWords, Nat.div_eq_of_lt (length_lt_four_of_no_word hshort)]

/-- Word `k` of an image is made of the bytes at file offsets `4k` to `4k + 3`. -/
theorem imageWords_getElem? {file : List Byte} {k : Nat} {b0 b1 b2 b3 : Byte} (h0 : file[4 * k]? = some b0)
    (h1 : file[4 * k + 1]? = some b1) (h2 : file[4 * k + 2]? = some b2) (h3 : file[4 * k + 3]? = some b3) :
    (imageWords file)[k]? = some (wordOfBytes b0 b1 b2 b3) := by
  induction file using imageWords.induct generalizing k with
  | case1 c0 c1 c2 c3 rest ih =>
    cases k with
    | zero => simp_all [imageWords]
    | succ k =>
      simp only [Nat.mul_succ, List.getElem?_cons_succ] at h0 h1 h2 h3
      simpa [imageWords] using ih h0 h1 h2 h3
  | case2 file hshort =>
    have hlt := length_lt_four_of_no_word hshort
    obtain ⟨hle, -⟩ := List.getElem?_eq_some_iff.1 h3
    omega

end Sys2Proof

namespace Sys2Proof.Machine

/-- A launch with an image file that has a run is the launch with the file's words. -/
theorem State.launchWords_of_launch {cfg : LaunchConfig} {file : List Byte} {s : State} (h : State.launch cfg file = some s) :
    State.launchWords cfg (imageWords file) = some s := by
  unfold State.launch at h
  split at h
  · cases h
  · exact h

/-- Settles O2: A0 holds the file's words, and each word is made of its four bytes. -/
theorem imageFileIsBigEndian : Obligations.ImageFileIsBigEndian := by
  intro cfg file s h
  obtain ⟨hle, rfl⟩ := State.launchWords_eq_some.1 (State.launchWords_of_launch h)
  have hlt : (imageWords file).length < 2 ^ 32 := Nat.lt_of_le_of_lt hle cfg.maxImageWords.isLt
  refine ⟨(Segment.ofWords_len hlt).trans (imageWords_length file), fun k b0 b1 b2 b3 h0 h1 h2 h3 => ?_⟩
  rw [Segment.ofWords_read hlt, imageWords_getElem? h0 h1 h2 h3, Option.map_some, wordOfBytes_toNat]

/-! ## A0 as program and as data -/

/-- A running cycle whose fetch gives a word that decodes runs its instruction, with `pc` past it (R123, R124). -/
theorem step_of_decode {s : State} {w : Word} {i : Instr} (hrun : s.run = .running) (hw : s.a0.read s.pc = some w)
    (hd : decode w = .ok i) : step s = exec i { s with pc := s.pc + 1 } := by
  simp only [step, hrun, State.fetch_of_read hw, hd]

/-- A store inside A0 completes, by a write of A0. -/
theorem execStore_a0 {a b c : RegIdx} {s t : State} (hid : s.x a = 0#32) (ho : s.x b < s.a0.len)
    (h : exec (.store a b c) s = .next t) : ∃ g, s.a0.write (s.x b) (s.x c) = some g ∧ t = { s with a0 := g } := by
  obtain hw | ⟨r, hr, -⟩ := execStore_next h
  · obtain ⟨-, hg⟩ | ⟨hne, -⟩ := State.memWrite_cases hw
    · exact hg
    · exact absurd hid hne
  · obtain ⟨-, hle, -⟩ | ⟨hne, -⟩ | ⟨g, hne, -⟩ := State.memWrite_error hr
    · exact absurd ho (BitVec.not_lt.2 hle)
    all_goals exact absurd hid hne

/-- Settles O30: the fetch reads the written segment. -/
theorem storedWordIsExecuted : Obligations.StoredWordIsExecuted := by
  intro a b c s t i hrun hid ho h hd
  obtain ⟨g, hg, rfl⟩ := execStore_a0 hid ho h
  obtain ⟨-, -, hread⟩ := Segment.write_spec hg
  have hw : g.read (s.x b) = some (s.x c) := by rw [hread, if_pos rfl]
  exact step_of_decode hrun hw hd

/-- Settles O34: the effect of each of the three opcodes on memory leaves the other side alone. -/
theorem installedCopyIsIndependent : Obligations.InstalledCopyIsIndependent := by
  refine ⟨fun b c s t h => ?_, fun a b c s t h => ?_, fun c s t h => ?_⟩
  · cases exec_memEffect h with
    | unchanged _ hmgr => exact hmgr
    | replace _ _ hmgr => exact hmgr
  · cases exec_memEffect h with
    | unchanged ha0 hmgr => exact ⟨fun _ => ha0, fun _ => hmgr⟩
    | storeA0 hid _ hmgr => exact ⟨fun hne => absurd hid hne, fun _ => hmgr⟩
    | storeSegment ha0 hset => exact ⟨fun _ => ha0, fun hid => absurd hid (SegMgr.set_spec hset).1⟩
  · cases exec_memEffect h with
    | unchanged ha0 _ => exact ha0
    | unmap ha0 _ => exact ha0

/-- Every word of memory stands in A0 or in the segment manager (R52). -/
theorem State.wordAt_congr {s t : State} (ha0 : t.a0 = s.a0) (hmgr : t.mgr = s.mgr) (id o : Word) :
    t.wordAt id o = s.wordAt id o := by
  simp only [State.wordAt, State.segmentAt, ha0, hmgr]

/-- Settles O50: of the effects on memory, every other one belongs to one of the four opcodes. -/
theorem memoryUntouchedByOtherInstructions : Obligations.MemoryUntouchedByOtherInstructions := by
  intro i s t h hstore hmap hunmap hloadp
  cases exec_memEffect h with
  | unchanged ha0 hmgr => exact ⟨State.wordAt_congr ha0 hmgr, ha0, hmgr⟩
  | storeA0 => exact absurd rfl (hstore _ _ _)
  | storeSegment => exact absurd rfl (hstore _ _ _)
  | map => exact absurd rfl (hmap _ _)
  | unmap => exact absurd rfl (hunmap _)
  | replace => exact absurd rfl (hloadp _ _)

/-! ## When the manager's `map` and `unmap` complete -/

/-- A permitted `map` reuses the id freed last (R56). -/
theorem SegMgr.map_reuse {m : SegMgr} {id : Word} {rest : List Word} (size : Word) (hfree : m.freeIds = id :: rest) :
    ∃ m', m.map true size = .ok (id, m') ∧ m'.freeIds = rest ∧ m'.nextUnusedId = m.nextUnusedId := by
  simp [SegMgr.map, hfree]

/-- A permitted `map` with no id free takes the next unused one (R56). -/
theorem SegMgr.map_fresh {m : SegMgr} {id : Word} (size : Word) (hfree : m.freeIds = []) (hid : id.toNat = m.nextUnusedId) :
    ∃ m', m.map true size = .ok (id, m') ∧ m'.freeIds = [] ∧ m'.nextUnusedId = m.nextUnusedId + 1 := by
  simp [SegMgr.map, hfree, ← hid, id.isLt]

/-- A `map` that is denied, or finds no id left, fails (R56): the converse of `SegMgr.map_error`. -/
theorem SegMgr.map_exhausted {m : SegMgr} {allowed : Bool} {size : Word}
    (h : allowed = false ∨ m.freeIds = [] ∧ ¬ m.nextUnusedId < Config.idLimit) :
    m.map allowed size = .error .resourceExhausted := by
  obtain rfl | ⟨hfree, hnext⟩ := h
  · rfl
  · simp only [SegMgr.map, hfree, if_neg hnext, ite_self]

theorem SegMgr.map_isMapped {m m' : SegMgr} {allowed : Bool} {size id : Word} (h : m.map allowed size = .ok (id, m')) :
    m'.isMapped id = true := by
  simp [SegMgr.isMapped, SegMgr.map_segment h]

/-- I1: under the invariant id 0 is not mapped. -/
theorem SegMgr.Inv.ne_zero_of_isMapped {m : SegMgr} {id : Word} (I : m.Inv) (h : m.isMapped id = true) : id ≠ 0#32 := by
  rintro rfl
  obtain ⟨g, hg⟩ := SegMgr.isMapped_iff.1 h
  exact absurd (I.mapped_range _ (Assoc.mem_of_lookup hg)).1 (Nat.not_succ_le_zero 0)

/-- An `unmap` of a mapped id other than 0 completes (R58): the converse of `SegMgr.unmap_error`. -/
theorem SegMgr.unmap_of_isMapped {m : SegMgr} {id : Word} (h0 : id ≠ 0#32) (h : m.isMapped id = true) :
    ∃ m', m.unmap id = .ok m' := by
  obtain ⟨g, hg⟩ := SegMgr.isMapped_iff.1 h
  simp [SegMgr.unmap, h0, hg]

/-- D18: `unmap` puts the id at the front of `free_ids`, where the next `map` takes it. -/
theorem SegMgr.Inv.map_unmap_map {m m1 : SegMgr} {allowed : Bool} {size id : Word} (I : m.Inv)
    (h : m.map allowed size = .ok (id, m1)) :
    ∃ m2, m1.unmap id = .ok m2 ∧ ∀ size', ∃ m3, m2.map true size' = .ok (id, m3) := by
  have hmapped := SegMgr.map_isMapped h
  obtain ⟨m2, hunmap⟩ := SegMgr.unmap_of_isMapped ((SegMgr.map_inv I h).ne_zero_of_isMapped hmapped) hmapped
  obtain ⟨-, -, -, hfree, -⟩ := SegMgr.unmap_spec hunmap
  refine ⟨m2, hunmap, fun size' => ?_⟩
  obtain ⟨m3, hremap, -⟩ := SegMgr.map_reuse size' hfree
  exact ⟨m3, hremap⟩

/-! ## MAP and UNMAP from the manager's answer -/

section MapUnmap
variable {s : State} {b c : RegIdx} {id : Word} {m : SegMgr}

theorem execMap_of_ok (h : s.mgr.map (s.canAllocate (s.x c)) (s.x c) = .ok (id, m)) :
    exec (.map b c) s = .next (({ s with mgr := m } : State).writeReg b id) := by
  simp [exec, execMap, h, Except.map]

theorem execMap_of_error {r : Fault} (h : s.mgr.map (s.canAllocate (s.x c)) (s.x c) = .error r) :
    exec (.map b c) s = .next (s.raise r) := by
  simp [exec, execMap, h, Except.map]

theorem execUnmap_of_ok (h : s.mgr.unmap (s.x c) = .ok m) : exec (.unmap c) s = .next { s with mgr := m } := by
  simp [exec, execUnmap, h, Except.map]

/-- What a completed `map` leaves, once its id is in the destination register. -/
theorem SegMgr.map_mapsSegment {allowed : Bool} {size : Word} (h : s.mgr.map allowed size = .ok (id, m)) :
    MapsSegment b size id s (({ s with mgr := m } : State).writeReg b id) where
  dest := State.writeReg_x_self _ b id
  otherRegs k hk := State.writeReg_x_ne _ b k id hk
  segment := ⟨.zeros size, by simp [SegMgr.map_segment h], rfl, fun o ho => by rw [Segment.zeros_read, if_pos ho]⟩
  otherSegments j hj := by simp [SegMgr.map_segment h, hj]
  otherWords j o hj := by simp [State.wordAt, State.segmentAt, SegMgr.map_segment h, hj]
  pc := rfl
  run := rfl
  a0 := rfl
  output := rfl
  input := rfl
  allocDenied := rfl

end MapUnmap

/-- Settles O37: the id is the one freed last, else the next unused one, else there is none. -/
theorem mapRule : Obligations.MapRule := by
  intro b c s
  refine ⟨rfl, fun id rest hallow hfree => ?_, fun id hallow hfree _ hid => ?_, fun hdeny => ?_, fun hfree hnext => ?_⟩
  · obtain ⟨m, hm, hrest, hnext⟩ := SegMgr.map_reuse (s.x c) hfree
    exact ⟨_, execMap_of_ok (hallow ▸ hm), SegMgr.map_mapsSegment hm, hrest, hnext⟩
  · obtain ⟨m, hm, hrest, hnext⟩ := SegMgr.map_fresh (s.x c) hfree hid
    exact ⟨_, execMap_of_ok (hallow ▸ hm), SegMgr.map_mapsSegment hm, hrest, hnext⟩
  · exact execMap_of_error (SegMgr.map_exhausted (.inl hdeny))
  · exact execMap_of_error (SegMgr.map_exhausted (.inr ⟨hfree, hnext.not_lt⟩))

/-- Settles O40: the three instructions answer as the manager's three calls do. -/
theorem lifoReuse : Obligations.LifoReuse := by
  intro b c b' c' s t I _ h ht
  obtain ⟨id, m1, hmap, rfl⟩ | ⟨-, rfl⟩ := execMap_next h
  · obtain ⟨m2, hunmap, hremap⟩ := I.mgr_inv.map_unmap_map hmap
    rw [State.writeReg_x_self]
    refine ⟨_, execUnmap_of_ok (m := m2) (by rwa [State.writeReg_x_self]), ht, fun hallow => ?_⟩
    obtain ⟨m3, hm3⟩ := hremap _
    exact ⟨_, execMap_of_ok (by rw [hallow]; exact hm3), ht, State.writeReg_x_self ..⟩
  · cases ht

/-- Settles O41: the managers of the run, whose `free_ids` is a stack. -/
theorem reuseOrderOverSeveralUnmaps : Obligations.ReuseOrderOverSeveralUnmaps := by
  intro n1 n2 n3 n4 n5
  exact ⟨⟨2, [], [(1, .zeros n1)]⟩, ⟨3, [], [(1, .zeros n1), (2, .zeros n2)]⟩, ⟨3, [1#32], [(2, .zeros n2)]⟩,
    ⟨3, [2#32, 1#32], []⟩, ⟨3, [1#32], [(2, .zeros n3)]⟩, ⟨3, [], [(1, .zeros n4), (2, .zeros n3)]⟩,
    ⟨4, [], [(1, .zeros n4), (2, .zeros n3), (3, .zeros n5)]⟩, rfl, rfl, rfl, rfl, rfl, rfl, rfl⟩

end Sys2Proof.Machine
end

section
/-! PROOFS. The statements about the encoding (30_encoding.md): field extraction, decoder and encoder, the ignored bits and the
invalid opcodes. The decoder is described once, by the opcode and the operand fields of the word (`decode_eq_ok_iff`). -/

namespace Sys2Proof

/-! ## Field extraction (R96) -/

theorem extractUnsigned_of_le {width lsb : Nat} (w : Nat) (hwidth : width ≤ 64) (hend : width + lsb ≤ 64) :
    extractUnsigned w width lsb = some (w / 2 ^ lsb % 2 ^ width) := if_pos ⟨hwidth, hend⟩

theorem extractUnsigned_of_gt {width lsb : Nat} (w : Nat) (h : 64 < width ∨ 64 < width + lsb) :
    extractUnsigned w width lsb = none := if_neg (by omega)

/-- Inside the 64-bit range the default of `field` is not taken. -/
theorem extractUnsigned_eq_field {width lsb : Nat} (w : Word) (h : width + lsb ≤ 64) :
    extractUnsigned w.toNat width lsb = some (field w width lsb) := by
  rw [field_eq w h, extractUnsigned_of_le w.toNat (by omega) h]

/-- A field is decided by the low bits up to its end. -/
theorem field_congr {v w : Word} {n width lsb : Nat} (hlow : v.toNat % 2 ^ n = w.toNat % 2 ^ n) (hn : width + lsb ≤ n) :
    field v width lsb = field w width lsb := by
  have cut (x : Nat) : x / 2 ^ lsb % 2 ^ width = x % 2 ^ (lsb + width) / 2 ^ lsb := by
    rw [Nat.pow_add, Nat.mod_mul_right_div_self]
  have hend : v.toNat % 2 ^ (lsb + width) = w.toNat % 2 ^ (lsb + width) :=
    Nat.ModEq.of_dvd (Nat.pow_dvd_pow 2 (by omega)) hlow
  simp only [field, extractUnsigned, cut, hend]

theorem regField_congr {v w : Word} {n lsb : Nat} (hlow : v.toNat % 2 ^ n = w.toNat % 2 ^ n) (hn : 3 + lsb ≤ n) :
    regField v lsb = regField w lsb := congrArg (Fin.ofNat 8) (field_congr hlow hn)

/-! ## The operand fields put together again (R91, R92) -/

theorem fieldC_toNat (w : Word) : (fieldC w).val = w.toNat % 2 ^ 3 := by
  rw [fieldC, regField_val w (by decide)]
  omega

theorem fieldB_fieldC_toNat (w : Word) : (fieldB w).val * 2 ^ 3 + (fieldC w).val = w.toNat % 2 ^ 6 := by
  rw [fieldB, regField_val w (by decide), fieldC_toNat]
  omega

theorem fieldA_fieldB_fieldC_toNat (w : Word) :
    (fieldA w).val * 2 ^ 6 + (fieldB w).val * 2 ^ 3 + (fieldC w).val = w.toNat % 2 ^ 9 := by
  rw [Nat.add_assoc, fieldB_fieldC_toNat, fieldA, regField_val w (by decide)]
  omega

theorem immediate_fields_toNat (w : Word) : (regField w 25).val * 2 ^ 25 + field w 25 0 = w.toNat % 2 ^ 28 := by
  rw [regField_val w (by decide), field_eq w (by decide)]
  omega

/-! ## The decoder by its opcode and operand fields -/

/-- The operand fields of `w` that the opcode of an instruction reads (R22, R91, R92) hold its operands. -/
def Instr.OperandsIn (w : Word) : Instr → Prop
  | .cmov a b c | .load a b c | .store a b c | .add a b c | .mul a b c | .div a b c | .nand a b c =>
    fieldA w = a ∧ fieldB w = b ∧ fieldC w = c
  | .halt => True
  | .map b c | .loadp b c => fieldB w = b ∧ fieldC w = c
  | .unmap c | .out c | .inp c => fieldC w = c
  | .li a imm => regField w 25 = a ∧ field w 25 0 = imm

/-- A word decodes to the instruction of its opcode with its operand fields, and to no other (R97). -/
theorem decode_eq_ok_iff {w : Word} {i : Instr} :
    decode w = .ok i ↔ w.toNat / 2 ^ 28 = i.opcode ∧ i.OperandsIn w := by
  rw [← opcode_field]
  constructor
  · intro h
    unfold decode at h
    split at h <;> cases h <;> exact ⟨‹_›, by simp [Instr.OperandsIn]⟩
  · rintro ⟨hop, hargs⟩
    cases i with
    | cmov a b c | load a b c | store a b c | add a b c | mul a b c | div a b c | nand a b c =>
      obtain ⟨rfl, rfl, rfl⟩ := hargs
      simp [decode, hop, Instr.opcode]
    | halt => simp [decode, hop, Instr.opcode]
    | map b c | loadp b c =>
      obtain ⟨rfl, rfl⟩ := hargs
      simp [decode, hop, Instr.opcode]
    | unmap c | out c | inp c =>
      obtain rfl := hargs
      simp [decode, hop, Instr.opcode]
    | li a imm =>
      obtain ⟨rfl, rfl⟩ := hargs
      simp [decode, hop, Instr.opcode]

/-- The opcodes 0 to 13 decode (R97, R100). -/
theorem exists_decode_of_opcode_le {w : Word} (h : w.toNat / 2 ^ 28 ≤ 13) : ∃ i, decode w = .ok i := by
  cases hd : decode w with
  | ok i => exact ⟨i, rfl⟩
  | error e =>
    obtain ⟨hinvalid, -⟩ := decode_error hd
    omega

/-! ## Decoding and encoding are inverse -/

/-- The encoder puts the opcode and the operands into their fields. -/
theorem encode_fields {i : Instr} (h : i.wellFormed = true) :
    field (encode i) 4 28 = i.opcode ∧ i.OperandsIn (encode i) := by
  cases i with
  | cmov a b c | load a b c | store a b c | add a b c | mul a b c | div a b c | nand a b c =>
    exact packR_fields (by decide) a b c
  | halt => exact And.imp_right (fun _ => trivial) (packR_fields (by decide) 0 0 0)
  | map b c | loadp b c => exact And.imp_right And.right (packR_fields (by decide) 0 b c)
  | unmap c | out c | inp c => exact And.imp_right (fun h => h.2.2) (packR_fields (by decide) 0 0 c)
  | li a imm => exact packI_fields (of_decide_eq_true h) a

/-- Settles O4: the word of an instruction holds its opcode and its operands, which is what the decoder reads. -/
theorem decodeOfEncode : Obligations.DecodeOfEncode := by
  intro i hwf
  obtain ⟨hop, hargs⟩ := encode_fields hwf
  exact decode_eq_ok_iff.2 ⟨(opcode_field _).symm.trans hop, hargs⟩

/-- Operands read from a word fit a word: the immediate field has 25 bits (R95). -/
theorem Instr.OperandsIn.wellFormed {w : Word} {i : Instr} (h : i.OperandsIn w) : i.wellFormed = true := by
  cases i with
  | li a imm =>
    obtain ⟨-, rfl⟩ := h
    rw [field_eq w (by decide)]
    exact decide_eq_true (Nat.mod_lt _ (by decide))
  | _ => rfl

/-- The encoder puts the operands read from a word back where they stood, below the opcode. -/
theorem Instr.OperandsIn.encode_toNat {w : Word} {i : Instr} (h : i.OperandsIn w) :
    (encode i).toNat = i.opcode * 2 ^ 28 + w.toNat % 2 ^ decidingLowBits i := by
  cases i with
  | cmov a b c | load a b c | store a b c | add a b c | mul a b c | div a b c | nand a b c =>
    obtain ⟨rfl, rfl, rfl⟩ := h
    simp (disch := decide) only [encode, packR_toNat, Instr.opcode, decidingLowBits, ← fieldA_fieldB_fieldC_toNat,
      Nat.add_assoc]
  | halt =>
    simp (disch := decide) only [encode, packR_toNat, Instr.opcode, decidingLowBits, Fin.val_zero, Nat.zero_mul,
      Nat.pow_zero, Nat.mod_one]
  | map b c | loadp b c =>
    obtain ⟨rfl, rfl⟩ := h
    simp (disch := decide) only [encode, packR_toNat, Instr.opcode, decidingLowBits, ← fieldB_fieldC_toNat, Fin.val_zero,
      Nat.zero_mul, Nat.zero_add, Nat.add_assoc]
  | unmap c | out c | inp c =>
    obtain rfl := h
    simp (disch := decide) only [encode, packR_toNat, Instr.opcode, decidingLowBits, ← fieldC_toNat, Fin.val_zero,
      Nat.zero_mul, Nat.add_zero]
  | li a imm =>
    have himm := of_decide_eq_true h.wellFormed
    obtain ⟨rfl, rfl⟩ := h
    simp only [encode, packI_toNat himm, Instr.opcode, decidingLowBits, ← immediate_fields_toNat, Nat.add_assoc]

/-- Settles O5: a decoded instruction has the word's opcode and operands. -/
theorem encodeOfDecode : Obligations.EncodeOfDecode := by
  intro w i h
  obtain ⟨hop, hargs⟩ := decode_eq_ok_iff.1 h
  exact ⟨hargs.wellFormed, hop ▸ hargs.encode_toNat⟩

/-- Settles O6: what the decoder rejects is an opcode above 13, and what it gives has the word's opcode. -/
theorem decoderIsTotal : Obligations.DecoderIsTotal := by
  refine fun w => ⟨fun hop => ?_, decode_invalid⟩
  obtain ⟨i, hi⟩ := exists_decode_of_opcode_le hop
  exact ⟨i, hi, (decode_eq_ok_iff.1 hi).1.symm⟩

/-! ## Ignored bits (R99) -/

/-- Words that agree on the bits an instruction reads hold its operands alike. -/
theorem Instr.OperandsIn.congr {v w : Word} {i : Instr} (h : i.OperandsIn w)
    (hlow : v.toNat % 2 ^ decidingLowBits i = w.toNat % 2 ^ decidingLowBits i) : i.OperandsIn v := by
  cases i with
  | cmov a b c | load a b c | store a b c | add a b c | mul a b c | div a b c | nand a b c =>
    have agree {lsb : Nat} (hend : 3 + lsb ≤ 9) : regField v lsb = regField w lsb := regField_congr hlow hend
    obtain ⟨ha, hb, hc⟩ := h
    exact ⟨(agree (by decide)).trans ha, (agree (by decide)).trans hb, (agree (by decide)).trans hc⟩
  | halt => trivial
  | map b c | loadp b c =>
    have agree {lsb : Nat} (hend : 3 + lsb ≤ 6) : regField v lsb = regField w lsb := regField_congr hlow hend
    obtain ⟨hb, hc⟩ := h
    exact ⟨(agree (by decide)).trans hb, (agree (by decide)).trans hc⟩
  | unmap c | out c | inp c => exact (regField_congr hlow (Nat.le_refl 3)).trans h
  | li a imm =>
    obtain ⟨ha, himm⟩ := h
    exact ⟨(regField_congr hlow (Nat.le_refl 28)).trans ha,
      (field_congr hlow (by decide : 25 + 0 ≤ 28)).trans himm⟩

/-- Words with one opcode that agree on the low bits that opcode reads decode alike. -/
theorem decode_congr {v w : Word} {n : Nat} (hop : v.toNat / 2 ^ 28 = w.toNat / 2 ^ 28) (hvalid : w.toNat / 2 ^ 28 ≤ 13)
    (hn : ∀ i : Instr, w.toNat / 2 ^ 28 = i.opcode → decidingLowBits i ≤ n)
    (hlow : v.toNat % 2 ^ n = w.toNat % 2 ^ n) : decode v = decode w := by
  obtain ⟨i, hi⟩ := exists_decode_of_opcode_le hvalid
  obtain ⟨hiop, hargs⟩ := decode_eq_ok_iff.1 hi
  have hread : v.toNat % 2 ^ decidingLowBits i = w.toNat % 2 ^ decidingLowBits i :=
    Nat.ModEq.of_dvd (Nat.pow_dvd_pow 2 (hn i hiop)) hlow
  rw [hi]
  exact decode_eq_ok_iff.2 ⟨hop.trans hiop, hargs.congr hread⟩

/-- How many low bits the opcodes of format R read at most (R22, R91). -/
theorem decidingLowBits_le (i : Instr) :
    (i.opcode ≤ 12 → decidingLowBits i ≤ 9) ∧ (i.opcode = 7 → decidingLowBits i ≤ 0) ∧
      (i.opcode = 8 ∨ i.opcode = 12 → decidingLowBits i ≤ 6) ∧
      (i.opcode = 9 ∨ i.opcode = 10 ∨ i.opcode = 11 → decidingLowBits i ≤ 3) := by
  cases i <;> simp [Instr.opcode, decidingLowBits]

/-- Settles O7: in each clause the two words agree on all the bits their opcode reads. -/
theorem unusedBitsAreIgnored : Obligations.UnusedBitsAreIgnored := by
  intro w v hop
  refine ⟨fun h hlow => ⟨decode_congr hop (by omega) (fun i hi => ?_) hlow, exists_decode_of_opcode_le (by omega)⟩,
    fun h => decode_congr (n := 0) hop (by omega) (fun i hi => ?_) (by simp only [Nat.pow_zero, Nat.mod_one]),
    fun h hlow => decode_congr hop (by omega) (fun i hi => ?_) hlow,
    fun h hlow => decode_congr hop (by omega) (fun i hi => ?_) hlow⟩
  all_goals
    have hread := decidingLowBits_le i
    omega

/-- Settles O8: each of the decoder's argument pairs ends within 64 bits. -/
theorem fieldExtractionRule : Obligations.FieldExtractionRule := by
  refine ⟨fun w _ _ => extractUnsigned_of_le w, fun w _ _ => extractUnsigned_of_gt w, fun w p hp => ?_⟩
  have hend : ∀ p ∈ [(4, 28), (3, 6), (3, 3), (3, 0), (3, 25), (25, 0)], p.1 + p.2 ≤ 64 := by decide
  exact extractUnsigned_eq_field w (hend p hp)

/-- Settles O9, by running the decoder. -/
theorem specWordsDecode : Obligations.SpecWordsDecode := ⟨rfl, rfl, rfl, rfl, rfl, rfl, rfl, rfl⟩

end Sys2Proof

namespace Sys2Proof.Machine

/-! ## Invalid opcodes (R98) -/

theorem State.memRead_error_code {s : State} {id o : Word} {r : Fault} (h : s.memRead id o = .error r) : 3 ≤ r.code := by
  obtain ⟨-, -, rfl⟩ | ⟨-, -, rfl⟩ | ⟨g, -, -, -, rfl⟩ := State.memRead_error h <;> decide

theorem State.memWrite_error_code {s : State} {id o v : Word} {r : Fault} (h : s.memWrite id o v = .error r) :
    3 ≤ r.code := by
  obtain ⟨-, -, rfl⟩ | ⟨-, -, rfl⟩ | ⟨g, -, -, -, rfl⟩ := State.memWrite_error h <;> decide

theorem SegMgr.unmap_error_code {m : SegMgr} {id : Word} {r : Fault} (h : m.unmap id = .error r) : 3 ≤ r.code := by
  obtain ⟨-, rfl⟩ | ⟨-, -, rfl⟩ := SegMgr.unmap_error h <;> decide

/-- An instruction raises neither the fetch's fault (code 1) nor the decoder's (code 2) (R121, R122, R201). -/
theorem exec_faulted_code {i : Instr} {s t : State} {r : Fault} (hrun : s.run = .running) (h : exec i s = .next t)
    (ht : t.run = .faulted r) : 3 ≤ r.code := by
  have raised {r' : Fault} (he : t = s.raise r') : r' = r := by
    rw [he, State.raise_run] at ht
    exact RunState.faulted.inj ht
  have kept (he : t.run = s.run) : 3 ≤ r.code := by
    rw [he, hrun] at ht
    cases ht
  cases i with
  | cmov a b c => obtain ⟨-, rfl⟩ | ⟨-, rfl⟩ := execCmov_next h <;> exact kept rfl
  | add a b c => exact kept (by rw [execAdd_next h]; rfl)
  | mul a b c => exact kept (by rw [execMul_next h]; rfl)
  | nand a b c => exact kept (by rw [execNand_next h]; rfl)
  | li a imm => exact kept (by rw [execLi_next h]; rfl)
  | inp c => obtain ⟨_, _, -, rfl⟩ | ⟨-, rfl⟩ := execIn_next h <;> exact kept rfl
  | halt =>
    rw [execHalt_next h, State.halt_run] at ht
    cases ht
  | div a b c =>
    obtain ⟨-, rfl⟩ | ⟨-, rfl⟩ := execDiv_next h
    · exact kept rfl
    · exact raised rfl ▸ by decide
  | load a b c =>
    obtain ⟨v, -, rfl⟩ | ⟨r', hr, rfl⟩ := execLoad_next h
    · exact kept rfl
    · exact raised rfl ▸ State.memRead_error_code hr
  | store a b c =>
    obtain hw | ⟨r', hr, rfl⟩ := execStore_next h
    · obtain ⟨-, g, -, rfl⟩ | ⟨-, m, -, rfl⟩ := State.memWrite_cases hw <;> exact kept rfl
    · exact raised rfl ▸ State.memWrite_error_code hr
  | map b c =>
    obtain ⟨id, m, -, rfl⟩ | ⟨-, rfl⟩ := execMap_next h
    · exact kept rfl
    · exact raised rfl ▸ by decide
  | unmap c =>
    obtain ⟨m, -, rfl⟩ | ⟨r', hr, rfl⟩ := execUnmap_next h
    · exact kept rfl
    · exact raised rfl ▸ SegMgr.unmap_error_code hr
  | out c =>
    obtain ⟨-, rfl⟩ | ⟨-, rfl⟩ := execOut_next h
    · exact kept rfl
    · exact raised rfl ▸ by decide
  | loadp b c =>
    obtain ⟨-, rfl⟩ | ⟨-, g, -, rfl⟩ | ⟨-, -, rfl⟩ := execLoadp_next h
    · exact kept rfl
    · exact kept rfl
    · exact raised rfl ▸ by decide

/-- A running cycle whose word the decoder rejects faults, with `pc` past the word (R122, R98). -/
theorem step_of_invalid {s : State} {w : Word} (hrun : s.run = .running) (hw : s.a0.read s.pc = some w)
    (hop : 14 ≤ w.toNat / 2 ^ 28) : step s = .next (({ s with pc := s.pc + 1 } : State).raise .invalidOpcode) := by
  simp only [step, hrun, State.fetch_of_read hw, decode_invalid hop]

/-- Settles O13: of the ways a running cycle ends, only the decoder's rejection has the code 2. -/
theorem invalidOpcodeFaults : Obligations.InvalidOpcodeFaults := by
  refine ⟨fun s w hrun hw hop => step_of_invalid hrun hw hop, fun s t hrun h ht => ?_⟩
  obtain ⟨hnot, -⟩ | ⟨-, -, rfl⟩ | ⟨-, w, hw, hop, -⟩ | ⟨-, i, -, he⟩ := step_cases h
  · exact absurd hrun hnot
  · cases ht
  · exact ⟨w, hw, hop⟩
  · exact absurd (exec_faulted_code (by exact hrun) he ht) (by decide)

end Sys2Proof.Machine
end

section
/-! PROOFS. The statements about one cycle (40_cycle.md): the fetch, the dispatch of the decoded instruction, a cycle that
faults, and `pc` after a cycle. -/

namespace Sys2Proof.Machine

/-! ## No cycle outside Running (R120) -/

/-- Settles O10, by the two run states without a cycle. -/
theorem noCycleOutsideRunning : Obligations.NoCycleOutsideRunning := by
  intro s hnot
  cases hrun : s.run with
  | running => exact absurd hrun hnot
  | halted => simp only [step, hrun]
  | faulted r => simp only [step, hrun]

/-! ## Fetch and dispatch (R121, R123) -/

/-- A fetch past the end of A0 faults. -/
theorem State.fetch_of_le {s : State} (h : s.a0.len ≤ s.pc) : s.fetch = .error .pcOutOfRange := by
  simp only [State.fetch, Segment.read_eq_none.2 h]

/-- A running cycle whose fetch is past the end of A0 faults, with `pc` unchanged. -/
theorem step_of_le {s : State} (hrun : s.run = .running) (h : s.a0.len ≤ s.pc) :
    step s = .next (s.raise .pcOutOfRange) := by
  simp only [step, hrun, State.fetch_of_le h]

/-- Settles O11: the fetch succeeds where A0 has a word at `pc` and faults at or past its length. -/
theorem fetchRule : Obligations.FetchRule := fun _ =>
  ⟨fun _ => State.fetch_of_read, State.fetch_of_le, step_of_le⟩

/-- An offset inside a segment has a successor: the length is itself a 32-bit value (R59). -/
theorem Word.toNat_add_one_of_lt {p len : Word} (h : p < len) : (p + 1).toNat = p.toNat + 1 := by
  bv_omega

/-- Settles O12: a fetch is inside A0, whose length bounds `pc + 1`. -/
theorem pcNeverWraps : Obligations.PcNeverWraps := by
  intro s t w h
  obtain ⟨hw, rfl⟩ := State.fetch_spec h
  have hlt : s.pc < s.a0.len := Segment.read_isSome.1 (Option.isSome_of_eq_some hw)
  exact ⟨hlt, Word.toNat_add_one_of_lt hlt, Nat.le_pred_of_lt (s.pc + 1).isLt⟩

/-- Settles O14, by the dispatch of a decoded word. -/
theorem stepRunsDecodedInstruction : Obligations.StepRunsDecodedInstruction := fun _ _ _ => step_of_decode

/-! ## A faulting cycle (R125) -/

/-- A running instruction that ends in Faulted has written nothing else. -/
theorem exec_faulted {i : Instr} {s t : State} {r : Fault} (hrun : s.run = .running) (h : exec i s = .next t)
    (ht : t.run = .faulted r) : t = s.raise r := by
  obtain hsame | ⟨-, rfl⟩ | ⟨r', rfl⟩ := exec_ends h
  · rw [hsame, hrun] at ht
    cases ht
  · cases ht
  · cases ht
    rfl

/-- Settles O16: the fetch faults before it writes `pc`, the decoder and the instructions raise other faults, after it. -/
theorem faultingCycleIsAtomic : Obligations.FaultingCycleIsAtomic := by
  intro s t r hrun h ht
  obtain ⟨hnot, -⟩ | ⟨-, -, rfl⟩ | ⟨-, w, -, -, rfl⟩ | ⟨-, i, -, he⟩ := step_cases h
  · exact absurd hrun hnot
  · cases ht
    exact ⟨fun _ => rfl, fun hne => absurd rfl hne⟩
  · cases ht
    exact ⟨nofun, fun _ => rfl⟩
  · have hcode : 3 ≤ r.code := exec_faulted_code (by exact hrun) he ht
    have hne : r ≠ .pcOutOfRange := by
      rintro rfl
      exact absurd hcode (by decide)
    exact ⟨fun heq => absurd heq hne, fun _ => exec_faulted (by exact hrun) he ht⟩

/-! ## `pc` after a cycle (R26, R172) -/

/-- An IN without a response waits. -/
theorem execIn_of_nil {c : RegIdx} {s : State} (h : s.input = []) : exec (.inp c) s = .next s.holdCycle := by
  simp only [exec, execIn, h]

/-- A waiting cycle leaves the whole state as it was (R128(d), R191). -/
theorem step_of_waiting {s : State} (h : s.waiting) : step s = .next s := by
  obtain ⟨hrun, hinput, c, w, hw, hd⟩ := h
  rw [step_of_decode hrun hw hd, execIn_of_nil (by exact hinput), State.holdCycle_of_fetch (State.fetch_of_read hw)]

/-- A LOADP that completes jumps to `x[c]` (R171). -/
theorem execLoadp_pc {b c : RegIdx} {s t : State} (h : exec (.loadp b c) s = .next t) (ht : t.run = .running) :
    t.pc = s.x c := by
  obtain ⟨-, rfl⟩ | ⟨-, g, -, rfl⟩ | ⟨-, -, rfl⟩ := execLoadp_next h
  · rfl
  · rfl
  · cases ht

/-- Only a LOADP that completes and an IN that waits write `pc` (R172). -/
theorem exec_pc {i : Instr} {s t : State} (hrun : s.run = .running) (h : exec i s = .next t)
    (hloadp : t.run = .running → ∀ b c, i ≠ .loadp b c) (hinp : s.input = [] → ∀ c, i ≠ .inp c) : t.pc = s.pc := by
  cases i with
  | cmov a b c => obtain ⟨-, rfl⟩ | ⟨-, rfl⟩ := execCmov_next h <;> rfl
  | load a b c => obtain ⟨v, -, rfl⟩ | ⟨r, -, rfl⟩ := execLoad_next h <;> rfl
  | store a b c =>
    obtain hw | ⟨r, -, rfl⟩ := execStore_next h
    · obtain ⟨-, g, -, rfl⟩ | ⟨-, m, -, rfl⟩ := State.memWrite_cases hw <;> rfl
    · rfl
  | add a b c => rw [execAdd_next h, State.writeReg_pc]
  | mul a b c => rw [execMul_next h, State.writeReg_pc]
  | div a b c => obtain ⟨-, rfl⟩ | ⟨-, rfl⟩ := execDiv_next h <;> rfl
  | nand a b c => rw [execNand_next h, State.writeReg_pc]
  | halt => rw [execHalt_next h, State.halt_pc]
  | map b c => obtain ⟨id, m, -, rfl⟩ | ⟨-, rfl⟩ := execMap_next h <;> rfl
  | unmap c => obtain ⟨m, -, rfl⟩ | ⟨r, -, rfl⟩ := execUnmap_next h <;> rfl
  | out c => obtain ⟨-, rfl⟩ | ⟨-, rfl⟩ := execOut_next h <;> rfl
  | inp c =>
    obtain ⟨r, rest, -, rfl⟩ | ⟨hempty, -⟩ := execIn_next h
    · rfl
    · exact absurd rfl (hinp hempty c)
  | loadp b c =>
    obtain ⟨-, rfl⟩ | ⟨-, g, -, rfl⟩ | ⟨-, -, rfl⟩ := execLoadp_next h
    · exact absurd rfl (hloadp hrun b c)
    · exact absurd rfl (hloadp hrun b c)
    · rfl
  | li a imm => rw [execLi_next h, State.writeReg_pc]

/-- Settles O35: the cycle faults in the fetch, waits, completes a LOADP, or leaves the increment of the fetch. -/
theorem pcAfterCycle : Obligations.PcAfterCycle := by
  intro s t hrun h
  by_cases hwait : s.waiting
  case pos =>
    obtain rfl := Host.Outcome.next.inj ((step_of_waiting hwait).symm.trans h)
    exact .inr (.inl ⟨hwait, rfl⟩)
  obtain ⟨hnot, -⟩ | ⟨-, hle, rfl⟩ | ⟨-, w, hw, hop, rfl⟩ | ⟨-, i, hi, he⟩ := step_cases h
  · exact absurd hrun hnot
  · exact .inl ⟨hle, rfl⟩
  · have hlt : s.pc < s.a0.len := Segment.read_isSome.1 (Option.isSome_of_eq_some hw)
    exact .inr (.inr (.inr ⟨hlt, hwait, fun _ _ _ => State.not_nextInstr_of_invalid hw hop, rfl⟩))
  · by_cases hjump : t.run = .running ∧ ∃ b c, i = .loadp b c
    case pos =>
      obtain ⟨ht, b, c, rfl⟩ := hjump
      exact .inr (.inr (.inl ⟨b, c, hi, ht, (execLoadp_pc he ht :)⟩))
    have hloadp : t.run = .running → ∀ b c, i ≠ .loadp b c := fun ht b c hic => hjump ⟨ht, b, c, hic⟩
    have hinp : s.input = [] → ∀ c, i ≠ .inp c := fun hempty c hic => hwait ⟨hrun, hempty, c, hic ▸ hi⟩
    exact .inr (.inr (.inr ⟨State.nextInstr_lt hi, hwait,
      fun ht b c hn => hloadp ht b c (State.nextInstr_unique hi hn), exec_pc (by exact hrun) he hloadp hinp⟩))

end Sys2Proof.Machine
end

section
/-! PROOFS. The statements about the alu (41_alu.md): CMOV, ADD, MUL, DIV, NAND and LI, and the CMOV that does nothing. -/

namespace Sys2Proof.Machine

/-! ## The values the alu computes -/

@[simp] theorem aluAdd_toNat (x y : Word) : (aluAdd x y).toNat = (x.toNat + y.toNat) % 2 ^ 32 := BitVec.toNat_ofNat ..

@[simp] theorem aluMul_toNat (x y : Word) : (aluMul x y).toNat = x.toNat * y.toNat % 2 ^ 32 := BitVec.toNat_ofNat ..

/-- A quotient of two words needs no narrowing (R143). -/
theorem quotient_toNat (x y : Word) : (BitVec.ofNat 32 (x.toNat / y.toNat)).toNat = x.toNat / y.toNat :=
  (BitVec.toNat_ofNat ..).trans <| Nat.mod_eq_of_lt <| (Nat.div_le_self ..).trans_lt x.isLt

theorem aluNand_getLsbD (x y : Word) {n : Nat} (h : n < 32) :
    (aluNand x y).getLsbD n = !(x.getLsbD n && y.getLsbD n) := by
  simp only [aluNand, BitVec.getLsbD_not, BitVec.getLsbD_and, h, decide_true, Bool.true_and]

/-- An immediate the encoding admits is a word already (R95). -/
theorem immediate_toNat {imm : Nat} (h : imm < 2 ^ 25) : (immediate imm).toNat = imm :=
  (BitVec.toNat_ofNat ..).trans <| Nat.mod_eq_of_lt (by omega)

/-! ## What the instructions of the alu answer, from what `Laws/Exec` says they can answer -/

section Answers
variable {s u : State} {a b c : RegIdx}

/-- Every instruction answers a next state, so the only one it can answer is its answer. -/
theorem exec_eq_next {i : Instr} (h : ∀ {t}, exec i s = .next t → t = u) : exec i s = .next u := by
  obtain ⟨t, ht⟩ := exec_isNext i s
  rw [ht, h ht]

theorem execCmov_of_ne (hc : s.x c ≠ 0#32) : exec (.cmov a b c) s = .next (s.writeReg a (s.x b)) :=
  exec_eq_next fun h => by simpa [hc] using execCmov_next h

theorem execCmov_of_zero (hc : s.x c = 0#32) : exec (.cmov a b c) s = .next s :=
  exec_eq_next fun h => by simpa [hc] using execCmov_next h

theorem execDiv_of_ne (hc : s.x c ≠ 0#32) :
    exec (.div a b c) s = .next (s.writeReg a (BitVec.ofNat 32 ((s.x b).toNat / (s.x c).toNat))) :=
  exec_eq_next fun h => by simpa [hc] using execDiv_next h

theorem execDiv_of_zero (hc : s.x c = 0#32) : exec (.div a b c) s = .next (s.raise .divideByZero) :=
  exec_eq_next fun h => by simpa [hc] using execDiv_next h

end Answers

/-! ## The rules -/

/-- Settles O20, by the two cases of the condition. -/
theorem conditionalMoveRule : Obligations.ConditionalMoveRule := fun a b _ s =>
  ⟨rfl, fun hc => ⟨_, execCmov_of_ne hc, s.writeReg_only a _, s.writeReg_x_self a (s.x b)⟩, execCmov_of_zero⟩

/-- Settles O21: the word written is the sum narrowed to 32 bits. -/
theorem addRule : Obligations.AddRule := by
  intro a b c s
  refine ⟨rfl, _, exec_eq_next execAdd_next, s.writeReg_only a _, ?_⟩
  rw [State.writeReg_x_self, aluAdd_toNat]

/-- Settles O22: the word written is the product narrowed to 32 bits. -/
theorem multiplyRule : Obligations.MultiplyRule := by
  intro a b c s
  refine ⟨rfl, _, exec_eq_next execMul_next, s.writeReg_only a _, ?_⟩
  rw [State.writeReg_x_self, aluMul_toNat]

/-- Settles O23, by the two cases of the divisor; the quotient is at most the dividend, so it is a word. -/
theorem divideRule : Obligations.DivideRule := by
  intro a b c s
  refine ⟨rfl, fun hc => ⟨_, execDiv_of_ne hc, s.writeReg_only a _, ?_⟩, execDiv_of_zero⟩
  rw [State.writeReg_x_self, quotient_toNat]

/-- Settles O24, bit by bit. -/
theorem nandRule : Obligations.NandRule := by
  intro a b c s
  refine ⟨rfl, _, exec_eq_next execNand_next, s.writeReg_only a _, fun n hn => ?_⟩
  rw [State.writeReg_x_self, aluNand_getLsbD _ _ hn]

/-- Settles O25: zero-extension keeps an immediate of 25 bits as a number. -/
theorem loadImmediateRule : Obligations.LoadImmediateRule := by
  intro a imm s himm
  refine ⟨rfl, _, exec_eq_next execLi_next, s.writeReg_only a _, ?_⟩
  rw [State.writeReg_x_self, immediate_toNat himm]

/-- Settles O26: a CMOV with `a = b` writes back what the register holds, or writes nothing. -/
theorem noOperationWord : Obligations.NoOperationWord := by
  refine ⟨rfl, fun a c s => exec_eq_next fun h => ?_⟩
  obtain ⟨-, rfl⟩ | ⟨-, rfl⟩ := execCmov_next h
  · exact s.writeReg_self a
  · rfl

end Sys2Proof.Machine
end

section
/-! PROOFS. The statements about load and store (42_load_store.md): LOAD, STORE, and the round trip. -/

namespace Sys2Proof.Machine

section Access
variable {s t : State} {a b c : RegIdx} {id o v : Word} {r : Fault}

/-! ## Accessing one word -/

/-- The check that an access to `(id, o)` fails, and its fault: the three checks of R160, which are those of R161. -/
def State.AccessFault (s : State) (id o : Word) (r : Fault) : Prop :=
  (id = 0#32 ∧ s.a0.len ≤ o ∧ r = .seg0OutOfRange) ∨
  (id ≠ 0#32 ∧ s.mgr.segment id = none ∧ r = .segUnmapped) ∨
  (∃ g, id ≠ 0#32 ∧ s.mgr.segment id = some g ∧ g.len ≤ o ∧ r = .segOffsetOutOfRange)

theorem State.memRead_error_iff : s.memRead id o = .error r ↔ s.AccessFault id o r := by
  refine ⟨State.memRead_error, fun h => ?_⟩
  obtain ⟨h0, ho, rfl⟩ | ⟨h0, hs, rfl⟩ | ⟨g, h0, hs, ho, rfl⟩ := h
  · simp [State.memRead, h0, Segment.read_eq_none.2 ho]
  · simp [State.memRead, SegMgr.get, h0, hs]
  · simp [State.memRead, SegMgr.get, h0, hs, Segment.read_eq_none.2 ho]

theorem State.memWrite_error_iff : s.memWrite id o v = .error r ↔ s.AccessFault id o r := by
  refine ⟨State.memWrite_error, fun h => ?_⟩
  obtain ⟨h0, ho, rfl⟩ | ⟨h0, hs, rfl⟩ | ⟨g, h0, hs, ho, rfl⟩ := h
  · simp [State.memWrite, h0, Segment.write_eq_none.2 ho]
  · simp [State.memWrite, SegMgr.set, h0, hs, Except.map]
  · simp [State.memWrite, SegMgr.set, h0, hs, Segment.write_eq_none.2 ho, Except.map]

theorem State.memWrite_wordAt_self (h : s.memWrite id o v = .ok t) : t.wordAt id o = some v := by
  obtain ⟨-, hword, -, -⟩ := State.memWrite_spec h
  rw [hword, if_pos ⟨rfl, rfl⟩]

theorem State.memWrite_wordAt_ne (h : s.memWrite id o v = .ok t) {j p : Word} (hne : (j, p) ≠ (id, o)) :
    t.wordAt j p = s.wordAt j p := by
  obtain ⟨-, hword, -, -⟩ := State.memWrite_spec h
  rw [hword, if_neg fun ⟨hj, hp⟩ => hne (Prod.ext hj hp)]

/-- A store puts one segment in the place of another and touches nothing else (R161), the id allocation included. -/
theorem State.memWrite_frame (h : s.memWrite id o v = .ok t) :
    OnlySegmentsChange s t ∧ t.mgr.nextUnusedId = s.mgr.nextUnusedId ∧ t.mgr.freeIds = s.mgr.freeIds := by
  obtain ⟨-, -, -, ⟨-, g, rfl⟩ | ⟨-, g, rfl⟩⟩ := State.memWrite_spec h <;>
    exact ⟨⟨fun _ => rfl, rfl, rfl, rfl, rfl, rfl⟩, rfl, rfl⟩

/-! ## What LOAD and STORE answer, by what the access answers -/

theorem execLoad_of_wordAt (h : s.wordAt (s.x b) (s.x c) = some v) : exec (.load a b c) s = .next (s.writeReg a v) := by
  simp only [exec, execLoad, loadAddr, State.memRead_ok_iff.2 h, Except.map, State.settle_ok]

theorem execLoad_of_accessFault (h : s.AccessFault (s.x b) (s.x c) r) : exec (.load a b c) s = .next (s.raise r) := by
  simp only [exec, execLoad, loadAddr, State.memRead_error_iff.2 h, Except.map, State.settle_error]

theorem execStore_of_ok (h : s.memWrite (s.x a) (s.x b) (s.x c) = .ok t) : exec (.store a b c) s = .next t := by
  simp only [exec, execStore, storeAddr, h, State.settle_ok]

theorem execStore_of_accessFault (h : s.AccessFault (s.x a) (s.x b) r) : exec (.store a b c) s = .next (s.raise r) := by
  simp only [exec, execStore, storeAddr, State.memWrite_error_iff.2 h, State.settle_error]

/-- A store after which the machine still runs took no fault, so it wrote. -/
theorem execStore_running (h : exec (.store a b c) s = .next t) (ht : t.run = .running) :
    s.memWrite (s.x a) (s.x b) (s.x c) = .ok t := by
  obtain hw | ⟨r, -, rfl⟩ := execStore_next h
  · exact hw
  · cases ht

end Access

/-! ## The rules -/

/-- Settles O27: a load of a word that exists writes one register; each failing check is an access fault. -/
theorem loadRule : Obligations.LoadRule := fun a _ _ s =>
  ⟨rfl, fun v hv => ⟨_, execLoad_of_wordAt hv, s.writeReg_only a v, s.writeReg_x_self a v⟩,
    fun h0 ho => execLoad_of_accessFault (.inl ⟨h0, ho, rfl⟩),
    fun h0 hm => execLoad_of_accessFault (.inr (.inl ⟨h0, SegMgr.not_isMapped_iff.1 hm, rfl⟩)),
    fun g h0 hg ho => execLoad_of_accessFault (.inr (.inr ⟨g, h0, hg, ho, rfl⟩))⟩

/-- Settles O28: a store to a word that exists completes, with the frame of a write; each failing check is an access
fault. -/
theorem storeRule : Obligations.StoreRule := by
  intro a b c s
  refine ⟨rfl, rfl, ?_, fun h0 ho => execStore_of_accessFault (.inl ⟨h0, ho, rfl⟩),
    fun h0 hm => execStore_of_accessFault (.inr (.inl ⟨h0, SegMgr.not_isMapped_iff.1 hm, rfl⟩)),
    fun g h0 hg ho => execStore_of_accessFault (.inr (.inr ⟨g, h0, hg, ho, rfl⟩))⟩
  rintro _ _ w ⟨⟩ hw
  obtain ⟨t, ht⟩ := State.memWrite_of_wordAt (s.x c) hw
  obtain ⟨hframe, hnext, hfree⟩ := State.memWrite_frame ht
  obtain ⟨-, -, hlen, -⟩ := State.memWrite_spec ht
  exact ⟨t, execStore_of_ok ht, hframe, State.memWrite_wordAt_self ht, fun _ _ => State.memWrite_wordAt_ne ht, hlen,
    hnext, hfree⟩

/-- Settles O29: the store wrote its word and no register, so the load finds that word at the same address. -/
theorem storeThenLoadReturnsValue : Obligations.StoreThenLoadReturnsValue := by
  intro a b c d s t _ h ht
  have hw := execStore_running h ht
  have hword : t.wordAt (t.x a) (t.x b) = some (s.x c) := by
    rw [State.memWrite_x hw, State.memWrite_x hw, State.memWrite_wordAt_self hw]
  exact ⟨_, execLoad_of_wordAt hword, t.writeReg_only d _, t.writeReg_x_self d (s.x c)⟩

end Sys2Proof.Machine
end

section
/-! PROOFS. The statements about control (43_control.md): HALT, LOADP, the fetch after a replacement, and the hangs. -/

namespace Sys2Proof.Machine

/-! ## What LOADP answers in each case of `x[b]`, from what `Laws/Exec` says it can answer -/

section Control
variable {s : State} {b c : RegIdx} {g : Segment}

theorem execLoadp_of_zero (hb : s.x b = 0#32) : exec (.loadp b c) s = .next (s.jump (s.x c)) :=
  exec_eq_next fun h => by simpa [hb] using execLoadp_next h

theorem execLoadp_of_segment (hb : s.x b ≠ 0#32) (hg : s.mgr.segment (s.x b) = some g) :
    exec (.loadp b c) s = .next ((s.replaceA0 g).jump (s.x c)) :=
  exec_eq_next fun h => by simpa [hb, hg] using execLoadp_next h

theorem execLoadp_of_unmapped (hb : s.x b ≠ 0#32) (hm : s.mgr.segment (s.x b) = none) :
    exec (.loadp b c) s = .next (s.raise .segUnmapped) :=
  exec_eq_next fun h => by simpa [hb, hm] using execLoadp_next h

/-! ## A LOADP as a whole cycle: its jump overwrites the increment of the fetch -/

/-- A running cycle runs the instruction that is next, with `pc` past it (R123, R124). -/
theorem step_of_nextInstr {i : Instr} (hrun : s.run = .running) (hi : s.nextInstr i) :
    step s = exec i { s with pc := s.pc + 1 } := by
  obtain ⟨w, hw, hd⟩ := hi
  exact step_of_decode hrun hw hd

theorem step_loadp_of_zero (hrun : s.run = .running) (hi : s.nextInstr (.loadp b c)) (hb : s.x b = 0#32) :
    step s = .next (s.jump (s.x c)) :=
  (step_of_nextInstr hrun hi).trans (execLoadp_of_zero (by exact hb))

theorem step_loadp_of_segment (hrun : s.run = .running) (hi : s.nextInstr (.loadp b c)) (hb : s.x b ≠ 0#32)
    (hg : s.mgr.segment (s.x b) = some g) : step s = .next ((s.replaceA0 g).jump (s.x c)) :=
  (step_of_nextInstr hrun hi).trans (execLoadp_of_segment (by exact hb) (by exact hg))

/-! ## A state that a step keeps -/

/-- A state that one step keeps is kept by every number of steps. -/
theorem core_run_of_step_self (h : step s = .next s) (k : Nat) : core.run k s = .next s := by
  induction k with
  | zero => rfl
  | succ k ih =>
    calc core.run (k + 1) s = core.run k s := by simp only [Host.Core.run, show core.step s = .next s from h]
      _ = .next s := ih

end Control

/-! ## The rules -/

/-- Settles O31: HALT sets the run state, and no cycle runs in Halted (R120). -/
theorem haltRule : Obligations.HaltRule := fun _ =>
  ⟨rfl, exec_eq_next execHalt_next, noCycleOutsideRunning _ nofun⟩

/-- Settles O32, by the three cases of `x[b]`: zero, mapped, not mapped. -/
theorem loadProgramRule : Obligations.LoadProgramRule := fun _ _ _ =>
  ⟨rfl, execLoadp_of_zero, fun _ => execLoadp_of_segment,
    fun hb hm => execLoadp_of_unmapped hb (SegMgr.not_isMapped_iff.1 hm)⟩

/-- Settles O33: the cycle leaves the segment in A0 and `pc` at `x[c]`, where the next fetch reads. -/
theorem replacedProgramIsFetched : Obligations.ReplacedProgramIsFetched := by
  intro s b c g w hrun hi hb hg hw
  have hfetch : ((s.replaceA0 g).jump (s.x c)).a0.read ((s.replaceA0 g).jump (s.x c)).pc = some w := hw
  exact ⟨_, step_loadp_of_segment hrun hi hb hg, hrun, rfl, State.fetch_of_read hfetch⟩

/-- Settles O36: a LOADP to its own offset writes `pc` with the value it had, and a wait undoes its fetch, so each is a
step to the same state. -/
theorem hangsNeverStop : Obligations.HangsNeverStop := by
  refine ⟨fun k s b c hrun hi hb hc => core_run_of_step_self ?_ k,
    fun k s hwait => core_run_of_step_self (step_of_waiting hwait) k⟩
  calc step s = .next (s.jump (s.x c)) := step_loadp_of_zero hrun hi hb
    _ = .next s := by rw [hc]; rfl

end Sys2Proof.Machine
end

section
/-! PROOFS. The statements about the segment instructions (44_segment.md): the id MAP gives, UNMAP, and which ids are mapped
after a sequence of `map` and `unmap` calls. -/

namespace Sys2Proof.Machine

/-- Settles O38: what `map` gives it has mapped (so by I1 it is not 0), and it was free or at the high-water mark before. -/
theorem mapGivesFreshId : Obligations.MapGivesFreshId := by
  intro b c s t I _ h ht
  obtain ⟨id, m, hmap, rfl⟩ | ⟨-, rfl⟩ := execMap_next h
  · have hmapped : m.isMapped id = true := SegMgr.map_isMapped hmap
    have hne : id ≠ 0#32 := (SegMgr.map_inv I.mgr_inv hmap).ne_zero_of_isMapped hmapped
    have hfresh : s.mgr.isMapped id = false := SegMgr.not_isMapped_iff.2 (I.mgr_inv.map_unmapped hmap)
    rw [State.writeReg_x_self]
    exact ⟨hne, hfresh, hmapped⟩
  · cases ht

/-! ## UNMAP -/

section Unmap
variable {s : State} {c : RegIdx} {m m' : SegMgr} {id : Word}

/-- The converse of `SegMgr.unmap_error` for id 0. -/
theorem SegMgr.unmap_zero (m : SegMgr) : m.unmap 0#32 = .error .segIdZero := if_pos rfl

/-- The converse of `SegMgr.unmap_error` for an id that is not mapped. -/
theorem SegMgr.unmap_of_not_isMapped (h0 : id ≠ 0#32) (h : m.isMapped id = false) : m.unmap id = .error .segUnmapped := by
  simp only [SegMgr.unmap, if_neg h0, SegMgr.not_isMapped_iff.1 h]

theorem execUnmap_of_error {r : Fault} (h : s.mgr.unmap (s.x c) = .error r) : exec (.unmap c) s = .next (s.raise r) := by
  simp only [exec, execUnmap, h, Except.map, State.settle_error]

/-- The bitmap is a view of what is mapped (R32). -/
theorem SegMgr.mappedBitmap_toNat (m : SegMgr) (id : Word) : m.mappedBitmap id.toNat = m.isMapped id := rfl

theorem SegMgr.unmap_segment_self (h : m.unmap id = .ok m') : m'.segment id = none := by
  rw [SegMgr.unmap_segment h, if_pos rfl]

theorem SegMgr.unmap_isMapped (h : m.unmap id = .ok m') : m'.isMapped id = false :=
  SegMgr.not_isMapped_iff.2 (SegMgr.unmap_segment_self h)

theorem SegMgr.unmap_segment_ne (h : m.unmap id = .ok m') {j : Word} (hj : j ≠ id) : m'.segment j = m.segment j := by
  rw [SegMgr.unmap_segment h, if_neg hj]

/-- Another manager changes segments only (R52). -/
theorem State.withMgr_onlySegmentsChange (s : State) (m : SegMgr) : OnlySegmentsChange s { s with mgr := m } :=
  ⟨fun _ => rfl, rfl, rfl, rfl, rfl, rfl⟩

/-- With another manager an id has the words it had if it has the segment it had. -/
theorem State.withMgr_wordAt {j : Word} (h : m.segment j = s.mgr.segment j) (o : Word) :
    ({ s with mgr := m } : State).wordAt j o = s.wordAt j o := by
  simp only [State.wordAt, State.segmentAt, h]

end Unmap

/-- Settles O39, by the three cases of `x[c]`: mapped, zero, not mapped. -/
theorem unmapRule : Obligations.UnmapRule := by
  intro c s
  refine ⟨rfl, fun h0 hmapped => ?_, fun h0 => execUnmap_of_error (h0 ▸ s.mgr.unmap_zero),
    fun h0 hm => execUnmap_of_error (SegMgr.unmap_of_not_isMapped h0 hm)⟩
  obtain ⟨m, hm⟩ := SegMgr.unmap_of_isMapped h0 hmapped
  obtain ⟨-, -, hnext, hfree, -⟩ := SegMgr.unmap_spec hm
  exact ⟨_, execUnmap_of_ok hm, s.withMgr_onlySegmentsChange m, rfl, SegMgr.unmap_segment_self hm,
    (m.mappedBitmap_toNat _).trans (SegMgr.unmap_isMapped hm), fun _ => SegMgr.unmap_segment_ne hm,
    fun _ o hj => State.withMgr_wordAt (SegMgr.unmap_segment_ne hm hj) o, hfree, hnext⟩

/-! ## Histories of `map` and `unmap` calls (R183) -/

section History
variable {m m' : SegMgr} {log : List (Word × Bool)} {id : Word}

theorem lastEvent_cons (id j : Word) (mapped : Bool) (log : List (Word × Bool)) :
    lastEvent ((id, mapped) :: log) j = if j = id then some mapped else lastEvent log j := by
  by_cases h : id = j
  · simp [lastEvent, h]
  · simp [lastEvent, h, Ne.symm h]

/-- A completed replay that begins with a `map` completes that call and the rest. -/
theorem SegMgr.replay_map {allowed : Bool} {size : Word} {rest : List SegCall} {r : SegMgr × List (Word × Bool)}
    (h : m.replay log (.map allowed size :: rest) = .ok r) :
    ∃ id m', m.map allowed size = .ok (id, m') ∧ m'.replay ((id, true) :: log) rest = .ok r := by
  unfold SegMgr.replay at h
  split at h
  · cases h
  · exact ⟨_, _, ‹_›, h⟩

/-- A completed replay that begins with an `unmap` completes that call and the rest. -/
theorem SegMgr.replay_unmap {rest : List SegCall} {r : SegMgr × List (Word × Bool)}
    (h : m.replay log (.unmap id :: rest) = .ok r) :
    ∃ m', m.unmap id = .ok m' ∧ m'.replay ((id, false) :: log) rest = .ok r := by
  unfold SegMgr.replay at h
  split at h
  · cases h
  · exact ⟨_, ‹_›, h⟩

/-- What is mapped in `m` is what the log says was mapped last (R183). -/
def SegMgr.AgreesWith (m : SegMgr) (log : List (Word × Bool)) : Prop :=
  ∀ id : Word, m.isMapped id = true ↔ lastEvent log id = some true

theorem SegMgr.new_agreesWith : SegMgr.new.AgreesWith [] := fun _ => ⟨nofun, nofun⟩

/-- An event of one id that the manager follows keeps the agreement. -/
theorem SegMgr.AgreesWith.cons {mapped : Bool} (A : m.AgreesWith log) (hself : m'.isMapped id = mapped)
    (hother : ∀ j, j ≠ id → m'.segment j = m.segment j) : m'.AgreesWith ((id, mapped) :: log) := by
  intro j
  rw [lastEvent_cons]
  by_cases hj : j = id
  · rw [if_pos hj, hj, hself, Option.some.injEq]
  · rw [if_neg hj, ← A j]
    simp only [SegMgr.isMapped, hother j hj]

theorem SegMgr.AgreesWith.map {allowed : Bool} {size : Word} (A : m.AgreesWith log)
    (h : m.map allowed size = .ok (id, m')) : m'.AgreesWith ((id, true) :: log) :=
  A.cons (SegMgr.map_isMapped h) fun j hj => by rw [SegMgr.map_segment h, if_neg hj]

theorem SegMgr.AgreesWith.unmap (A : m.AgreesWith log) (h : m.unmap id = .ok m') : m'.AgreesWith ((id, false) :: log) :=
  A.cons (SegMgr.unmap_isMapped h) fun _ => SegMgr.unmap_segment_ne h

/-- Every completed sequence of calls keeps the agreement. -/
theorem SegMgr.AgreesWith.replay {calls : List SegCall} {log' : List (Word × Bool)} (A : m.AgreesWith log)
    (h : m.replay log calls = .ok (m', log')) : m'.AgreesWith log' := by
  induction calls generalizing m log with
  | nil =>
    obtain ⟨rfl, rfl⟩ := Prod.mk.inj (Except.ok.inj h)
    exact A
  | cons call rest ih =>
    cases call with
    | map allowed size =>
      obtain ⟨id, m1, hmap, hrest⟩ := SegMgr.replay_map h
      exact ih (A.map hmap) hrest
    | unmap id =>
      obtain ⟨m1, hunmap, hrest⟩ := SegMgr.replay_unmap h
      exact ih (A.unmap hunmap) hrest

end History

/-- Settles O42: a new manager agrees with the empty log. -/
theorem mappedIffLastEventIsMap : Obligations.MappedIffLastEventIsMap := fun _ _ _ h =>
  SegMgr.new_agreesWith.replay h

end Sys2Proof.Machine
end

section
/-! PROOFS. The statements about byte input and output (45_io.md): OUT, and IN with a response and without one. -/

namespace Sys2Proof.Machine

section ByteIO
variable {s : State} {c : RegIdx}

/-! ## What OUT and IN answer, from what `Laws/Exec` says they can answer -/

theorem execOut_of_le (hc : (s.x c).toNat ≤ 255) :
    exec (.out c) s = .next { s with output := s.output ++ [BitVec.ofNat 8 (s.x c).toNat] } :=
  exec_eq_next fun h => by simpa [hc, hc.not_gt] using execOut_next h

theorem execOut_of_gt (hc : 255 < (s.x c).toNat) : exec (.out c) s = .next (s.raise .outputOutOfRange) :=
  exec_eq_next fun h => by simpa [hc, hc.not_ge] using execOut_next h

/-- An IN with a response consumes it and loads its value; the converse of `execIn_of_nil`. -/
theorem execIn_of_cons {r : InResponse} {rest : List InResponse} (h : s.input = r :: rest) :
    exec (.inp c) s = .next (({ s with input := rest } : State).writeReg c r.value) := by
  simp only [exec, execIn, h, State.settle_ok]

/-- An IN with a response changes the queue and the register alone, whatever the response is. -/
theorem execIn_consumes {r : InResponse} {rest : List InResponse} (h : s.input = r :: rest) :
    ∃ t, exec (.inp c) s = .next t ∧ t.input = rest ∧ OnlyRegChanges c { s with input := rest } t ∧ t.x c = r.value :=
  ⟨_, execIn_of_cons h, rfl, State.writeReg_only _ c _, State.writeReg_x_self _ c _⟩

/-! ## Bytes and words -/

/-- A word up to 255 is narrowed to the byte of the same value (R190). -/
theorem Byte.ofNat_toNat_of_le {v : Word} (h : v.toNat ≤ 255) : (BitVec.ofNat 8 v.toNat).toNat = v.toNat :=
  (BitVec.toNat_ofNat ..).trans <| Nat.mod_eq_of_lt <| Nat.lt_succ_of_le h

/-- A byte response is zero-extended, so it keeps its value (R191). -/
theorem InResponse.byte_value_toNat (v : Byte) : (InResponse.byte v).value.toNat = v.toNat :=
  (BitVec.toNat_ofNat ..).trans <| Nat.mod_eq_of_lt <| v.isLt.trans (by decide)

end ByteIO

/-! ## The rules -/

/-- Settles O43, by the two cases of `x[c]`: a byte, or above 255. -/
theorem outputRule : Obligations.OutputRule := fun _ _ =>
  ⟨rfl, fun hc => ⟨_, Byte.ofNat_toNat_of_le hc, execOut_of_le hc⟩, execOut_of_gt⟩

/-- Settles O44, by the three forms of the queue: a byte or end-of-stream at its head, which IN consumes, or no response, for
which the cycle waits. -/
theorem inputRule : Obligations.InputRule := by
  intro c s
  refine ⟨rfl, fun v rest hbyte => ?_, fun rest heof => execIn_consumes heof,
    fun hrun hi hempty => step_of_waiting ⟨hrun, hempty, c, hi⟩⟩
  obtain ⟨t, hexec, hinput, honly, hx⟩ := execIn_consumes hbyte
  exact ⟨t, hexec, hinput, honly, hx ▸ InResponse.byte_value_toNat v⟩

end Sys2Proof.Machine
end

section
/-! PROOFS. The statements about exceptions and the host (60_exceptions.md): the causes of the faults, runs free of faults, the
output log, the responses, and what of a fault is observed. -/

namespace Sys2Proof.Machine

/-! ## The cause of a fault (R201) -/

/-- The rows 3 to 9 of R201's table, by instruction: `i`, run in `s`, has a cause to raise `r`. -/
inductive FaultCause (s : State) : Instr → Fault → Prop
  | load {a b c : RegIdx} {r : Fault} (haccess : s.AccessFault (s.x b) (s.x c) r) : FaultCause s (.load a b c) r
  | store {a b c : RegIdx} {r : Fault} (haccess : s.AccessFault (s.x a) (s.x b) r) : FaultCause s (.store a b c) r
  | div {a b c : RegIdx} (hzero : s.x c = 0#32) : FaultCause s (.div a b c) .divideByZero
  | map {b c : RegIdx}
      (hnone : s.canAllocate (s.x c) = false ∨ s.mgr.freeIds = [] ∧ Config.idLimit ≤ s.mgr.nextUnusedId) :
      FaultCause s (.map b c) .resourceExhausted
  | unmapZero {c : RegIdx} (hid : s.x c = 0#32) : FaultCause s (.unmap c) .segIdZero
  | unmapUnmapped {c : RegIdx} (hid : s.x c ≠ 0#32) (hmapped : s.mgr.isMapped (s.x c) = false) :
      FaultCause s (.unmap c) .segUnmapped
  | out {c : RegIdx} (hvalue : 255 < (s.x c).toNat) : FaultCause s (.out c) .outputOutOfRange
  | loadp {b c : RegIdx} (hid : s.x b ≠ 0#32) (hmapped : s.mgr.isMapped (s.x b) = false) :
      FaultCause s (.loadp b c) .segUnmapped

/-- An instruction of a running cycle that ends in Faulted had its cause, wherever the fetch left `pc`. -/
theorem exec_faultCause {i : Instr} {s t : State} {p : Word} {r : Fault} (hrun : s.run = .running)
    (h : exec i { s with pc := p } = .next t) (ht : t.run = .faulted r) : FaultCause s i r := by
  have kept (he : t.run = s.run) : FaultCause s i r := by
    rw [he, hrun] at ht
    cases ht
  cases i with
  | cmov a b c => obtain ⟨-, rfl⟩ | ⟨-, rfl⟩ := execCmov_next h <;> exact kept rfl
  | add a b c => exact kept (by rw [execAdd_next h]; rfl)
  | mul a b c => exact kept (by rw [execMul_next h]; rfl)
  | nand a b c => exact kept (by rw [execNand_next h]; rfl)
  | li a imm => exact kept (by rw [execLi_next h]; rfl)
  | inp c => obtain ⟨_, _, -, rfl⟩ | ⟨-, rfl⟩ := execIn_next h <;> exact kept rfl
  | halt =>
    rw [execHalt_next h, State.halt_run] at ht
    cases ht
  | load a b c =>
    obtain ⟨v, -, rfl⟩ | ⟨r', hr, rfl⟩ := execLoad_next h
    · exact kept rfl
    · cases ht
      exact .load (State.memRead_error_iff.1 hr :)
  | store a b c =>
    obtain hw | ⟨r', hr, rfl⟩ := execStore_next h
    · exact kept (State.memWrite_frame hw).1.run
    · cases ht
      exact .store (State.memWrite_error_iff.1 hr :)
  | div a b c =>
    obtain ⟨-, rfl⟩ | ⟨hzero, rfl⟩ := execDiv_next h
    · exact kept rfl
    · cases ht
      exact .div hzero
  | map b c =>
    obtain ⟨id, m, -, rfl⟩ | ⟨hr, rfl⟩ := execMap_next h
    · exact kept rfl
    · cases ht
      exact .map ((SegMgr.map_error hr).2.imp_right (And.imp_right Nat.not_lt.1))
  | unmap c =>
    obtain ⟨m, -, rfl⟩ | ⟨r', hr, rfl⟩ := execUnmap_next h
    · exact kept rfl
    · cases ht
      obtain ⟨hid, rfl⟩ | ⟨hid, hmapped, rfl⟩ := SegMgr.unmap_error hr
      · exact .unmapZero hid
      · exact .unmapUnmapped hid hmapped
  | out c =>
    obtain ⟨-, rfl⟩ | ⟨hvalue, rfl⟩ := execOut_next h
    · exact kept rfl
    · cases ht
      exact .out hvalue
  | loadp b c =>
    obtain ⟨-, rfl⟩ | ⟨-, g, -, rfl⟩ | ⟨hid, hseg, rfl⟩ := execLoadp_next h
    · exact kept rfl
    · exact kept rfl
    · cases ht
      exact .loadp hid (SegMgr.not_isMapped_iff.2 hseg)

/-- Settles O18: the fetch has the cause of code 1 and the decoder that of code 2, and each instruction's cause is an
alternative of its fault's row. -/
theorem faultReasonsHaveTheirCauses : Obligations.FaultReasonsHaveTheirCauses := by
  refine ⟨fun s t r hrun h ht => ?_, rfl⟩
  obtain ⟨hnot, -⟩ | ⟨-, hle, rfl⟩ | ⟨-, w, hw, hop, rfl⟩ | ⟨-, i, hi, he⟩ := step_cases h
  · exact absurd hrun hnot
  · cases ht
    exact hle
  · cases ht
    exact ⟨w, hw, hop⟩
  cases exec_faultCause hrun he ht with
  | @load a b c _ haccess =>
    obtain ⟨hid, ho, rfl⟩ | ⟨hid, hseg, rfl⟩ | ⟨g, hid, hseg, ho, rfl⟩ := haccess
    · exact .inl ⟨a, b, c, hi, hid, ho⟩
    · exact .inl ⟨a, b, c, hi, hid, SegMgr.not_isMapped_iff.2 hseg⟩
    · exact .inl ⟨a, b, c, g, hi, hid, hseg, ho⟩
  | @store a b c _ haccess =>
    obtain ⟨hid, ho, rfl⟩ | ⟨hid, hseg, rfl⟩ | ⟨g, hid, hseg, ho, rfl⟩ := haccess
    · exact .inr ⟨a, b, c, hi, hid, ho⟩
    · exact .inr (.inl ⟨a, b, c, hi, hid, SegMgr.not_isMapped_iff.2 hseg⟩)
    · exact .inr ⟨a, b, c, g, hi, hid, hseg, ho⟩
  | @div a b c hzero => exact ⟨a, b, c, hi, hzero⟩
  | @map b c hnone => exact ⟨b, c, hi, hnone⟩
  | @unmapZero c hid => exact ⟨c, hi, hid⟩
  | @unmapUnmapped c hid hmapped => exact .inr (.inr (.inr ⟨c, hi, hid, hmapped⟩))
  | @out c hvalue => exact ⟨c, hi, hvalue⟩
  | @loadp b c hid hmapped => exact .inr (.inr (.inl ⟨b, c, hi, hid, hmapped⟩))

/-! ## Runs free of faults (R200, R205) -/

section FaultFree
variable {s t : State} {k : Nat}

/-- Every step answers a next state: a fault is one (R125), and outside Running it is the same state (R120). -/
theorem step_isNext (s : State) : ∃ t, step s = .next t := by
  by_cases hrun : s.run = .running
  case neg => exact ⟨s, noCycleOutsideRunning s hrun⟩
  cases hw : s.a0.read s.pc with
  | none => exact ⟨_, step_of_le hrun (Segment.read_eq_none.1 hw)⟩
  | some w =>
    cases hd : decode w with
    | error e => exact ⟨_, step_of_invalid hrun hw (decode_error hd).1⟩
    | ok i =>
      rw [step_of_decode hrun hw hd]
      exact exec_isNext i _

/-- A fault is never left: what a step takes to a state that is not faulted was not faulted. -/
theorem clean_of_step (h : step s = .next t) (ht : t.clean = true) : s.clean = true := by
  by_cases hrun : s.run = .running
  · simp only [State.clean, hrun]
  · rwa [← step_of_not_running hrun h]

theorem core_run_succ (h : step s = .next t) (k : Nat) : core.run (k + 1) s = core.run k t := by
  simp only [Host.Core.run, show core.step s = .next t from h]

theorem safeRun_succ_iff (h : step s = .next t) : SafeRun (k + 1) s ↔ s.clean = true ∧ SafeRun k t := by
  simp [SafeRun, h]

theorem SafeRun.clean (h : SafeRun k s) : s.clean = true := by
  cases k with
  | zero => exact h
  | succ k => exact h.1

end FaultFree

/-- Settles O19, by induction on the number of steps: the first state is not faulted, because its successor is not. -/
theorem faultFreeRunsEndClean : Obligations.FaultFreeRunsEndClean := by
  intro k
  induction k with
  | zero => exact fun s => ⟨fun h => ⟨s, rfl, h⟩, fun ⟨t, hrun, ht⟩ => (Host.Outcome.next.inj hrun) ▸ ht⟩
  | succ k ih =>
    intro s
    obtain ⟨t, h⟩ := step_isNext s
    calc SafeRun (k + 1) s ↔ s.clean = true ∧ SafeRun k t := safeRun_succ_iff h
      _ ↔ SafeRun k t := and_iff_right_of_imp fun hsafe => clean_of_step h hsafe.clean
      _ ↔ ∃ u : State, core.run (k + 1) s = .next u ∧ u.clean = true := by rw [ih t, core_run_succ h]

/-! ## The host's side of the state (R220, R223) -/

/-- What belongs to the host is the same in both states: the two channels and the parameter CAN_ALLOCATE. -/
structure SameHostSide (s t : State) : Prop where
  output : t.output = s.output
  input : t.input = s.input
  allocDenied : t.allocDenied = s.allocDenied

/-- What an instruction run in `s` does to the host's side: nothing, or the one effect of OUT or of IN (R190, R191). -/
inductive HostEffect (s t : State) : Instr → Prop
  | unchanged {i : Instr} (hsame : SameHostSide s t) : HostEffect s t i
  | emits {c : RegIdx} {byte : Byte} (hbyte : byte.toNat = (s.x c).toNat)
      (hsame : SameHostSide { s with output := s.output ++ [byte] } t) : HostEffect s t (.out c)
  | consumes {c : RegIdx} {r : InResponse} {rest : List InResponse} (hinput : s.input = r :: rest) (hx : t.x c = r.value)
      (hsame : SameHostSide { s with input := rest } t) : HostEffect s t (.inp c)

/-- Everything an instruction can do to the host's side, wherever the fetch left `pc`. -/
theorem exec_hostEffect {i : Instr} {s t : State} {p : Word} (h : exec i { s with pc := p } = .next t) :
    HostEffect s t i := by
  have same {u : State} (ho : u.output = s.output) (hi : u.input = s.input) (ha : u.allocDenied = s.allocDenied) :
      HostEffect s u i := .unchanged ⟨ho, hi, ha⟩
  cases i with
  | cmov a b c => obtain ⟨-, rfl⟩ | ⟨-, rfl⟩ := execCmov_next h <;> exact same rfl rfl rfl
  | load a b c => obtain ⟨v, -, rfl⟩ | ⟨r, -, rfl⟩ := execLoad_next h <;> exact same rfl rfl rfl
  | store a b c =>
    obtain hw | ⟨r, -, rfl⟩ := execStore_next h
    · obtain ⟨hframe, -, -⟩ := State.memWrite_frame hw
      exact same hframe.output hframe.input hframe.allocDenied
    · exact same rfl rfl rfl
  | add a b c => obtain rfl := execAdd_next h; exact same rfl rfl rfl
  | mul a b c => obtain rfl := execMul_next h; exact same rfl rfl rfl
  | div a b c => obtain ⟨-, rfl⟩ | ⟨-, rfl⟩ := execDiv_next h <;> exact same rfl rfl rfl
  | nand a b c => obtain rfl := execNand_next h; exact same rfl rfl rfl
  | halt => obtain rfl := execHalt_next h; exact same rfl rfl rfl
  | map b c => obtain ⟨id, m, -, rfl⟩ | ⟨-, rfl⟩ := execMap_next h <;> exact same rfl rfl rfl
  | unmap c => obtain ⟨m, -, rfl⟩ | ⟨r, -, rfl⟩ := execUnmap_next h <;> exact same rfl rfl rfl
  | out c =>
    obtain ⟨hc, rfl⟩ | ⟨-, rfl⟩ := execOut_next h
    · exact .emits (Byte.ofNat_toNat_of_le hc) ⟨rfl, rfl, rfl⟩
    · exact same rfl rfl rfl
  | inp c =>
    obtain ⟨r, rest, hinput, rfl⟩ | ⟨-, rfl⟩ := execIn_next h
    · exact .consumes hinput (State.writeReg_x_self _ c _) ⟨rfl, rfl, rfl⟩
    · exact same rfl rfl rfl
  | loadp b c => obtain ⟨-, rfl⟩ | ⟨-, g, -, rfl⟩ | ⟨-, -, rfl⟩ := execLoadp_next h <;> exact same rfl rfl rfl
  | li a imm => obtain rfl := execLi_next h; exact same rfl rfl rfl

/-- A step leaves the host's side alone or is a running cycle with the effect of its instruction. -/
theorem step_hostEffect {s t : State} (h : step s = .next t) :
    SameHostSide s t ∨ ∃ i, s.run = .running ∧ s.nextInstr i ∧ HostEffect s t i := by
  obtain ⟨-, rfl⟩ | ⟨-, -, rfl⟩ | ⟨-, w, -, -, rfl⟩ | ⟨hrun, i, hi, he⟩ := step_cases h
  · exact .inl ⟨rfl, rfl, rfl⟩
  · exact .inl ⟨rfl, rfl, rfl⟩
  · exact .inl ⟨rfl, rfl, rfl⟩
  · exact .inr ⟨i, hrun, hi, exec_hostEffect he⟩

/-- Settles O45: of the effects on the host's side, only that of OUT reaches the log. -/
theorem outputLogOnlyGrows : Obligations.OutputLogOnlyGrows := by
  intro s t h
  obtain hsame | ⟨i, hrun, hi, he⟩ := step_hostEffect h
  · exact .inl hsame.output
  cases he with
  | unchanged hsame => exact .inl hsame.output
  | @emits c byte hbyte hsame => exact .inr ⟨c, byte, hrun, hi, hbyte, hsame.output⟩
  | consumes _ _ hsame => exact .inl hsame.output

/-- Settles O46: of the effects on the host's side, only that of IN reaches the responses, and none CAN_ALLOCATE. -/
theorem responsesAreConsumedInOrder : Obligations.ResponsesAreConsumedInOrder := by
  intro s t h
  obtain hsame | ⟨i, hrun, hi, he⟩ := step_hostEffect h
  · exact ⟨hsame.allocDenied, .inl hsame.input⟩
  cases he with
  | unchanged hsame => exact ⟨hsame.allocDenied, .inl hsame.input⟩
  | emits _ hsame => exact ⟨hsame.allocDenied, .inl hsame.input⟩
  | @consumes c r rest hinput hx hsame =>
    have hhead : s.input = r :: t.input := by rw [hsame.input, hinput]
    exact ⟨hsame.allocDenied, .inr ⟨c, r, hrun, hi, hhead, hx⟩⟩

/-! ## What of a fault is observed (R202) -/

theorem State.observe_of_faulted {s : State} {r : Fault} (h : s.run = .faulted r) :
    s.observe = ⟨some .faulted, s.output⟩ := by
  simp only [State.observe, h]

/-- Settles O47: whatever the reason, the observation is Faulted with the output log. -/
theorem reasonIsNotObserved : Obligations.ReasonIsNotObserved := fun _ _ _ =>
  ⟨(State.observe_of_faulted rfl).trans (State.observe_of_faulted rfl).symm, State.observe_of_faulted rfl⟩

end Sys2Proof.Machine
end

section
/-! PROOFS. The statements on the machine as a whole: which image files have a run (70_reset_and_hazards.md section 2), how a
cycle ends (40_cycle.md R128), and that memories which read the same are the same data (10_state.md section 6). -/

namespace Sys2Proof

/-! ## The image files that have a run (R243) -/

/-- No byte is left over exactly when the file's length is a multiple of 4. -/
theorem imageRemainder_eq_nil_iff (file : List Byte) : imageRemainder file = [] ↔ file.length % 4 = 0 := by
  induction file using imageRemainder.induct with
  | case1 b0 b1 b2 b3 rest ih =>
    rw [imageRemainder, ih]
    simp only [List.length_cons]
    omega
  | case2 file hshort =>
    have hlt : file.length < 4 := length_lt_four_of_no_word hshort
    rw [imageRemainder.eq_2 file hshort, Nat.mod_eq_of_lt hlt, List.length_eq_zero_iff]

end Sys2Proof

namespace Sys2Proof.Machine

section Launch
variable {cfg : LaunchConfig} {file : List Byte}

theorem State.launch_of_rejected (hreject : cfg.remainder = .reject) (hrest : imageRemainder file ≠ []) :
    State.launch cfg file = none := by
  obtain ⟨b, bs, hbs⟩ := List.exists_cons_of_ne_nil hrest
  simp only [State.launch, hreject, hbs]

theorem State.launch_of_not_rejected (h : cfg.remainder = .reject → imageRemainder file = []) :
    State.launch cfg file = State.launchWords cfg (imageWords file) := by
  unfold State.launch
  split
  · rename_i hreject hbs
    cases (h hreject).symm.trans hbs
  · rfl

theorem State.launchWords_isSome_iff {image : List Word} :
    (State.launchWords cfg image).isSome = true ↔ image.length ≤ cfg.maxImageWords.toNat := by
  simp [State.launchWords]

end Launch

/-- Settles O3: a file is rejected for its leftover bytes, and any other launch is the launch of its words. -/
theorem launchAcceptsByItsParameters : Obligations.LaunchAcceptsByItsParameters := by
  intro cfg file
  rw [← imageRemainder_eq_nil_iff, ← imageWords_length]
  by_cases hrest : cfg.remainder = .reject → imageRemainder file = []
  · rw [State.launch_of_not_rejected hrest, State.launchWords_isSome_iff, and_iff_right hrest]
  · obtain ⟨hreject, hne⟩ := Classical.not_imp.1 hrest
    simp [State.launch_of_rejected hreject hne, hrest]

/-! ## How a cycle ends (R128) -/

/-- A queued response ends a wait. -/
theorem State.respond_not_waiting (s : State) (r : InResponse) : ¬ (s.respond r).waiting :=
  fun ⟨_, hempty, _⟩ => by simp at hempty

/-- Settles O15: a wait answers the same state, and any other cycle ends in one of the three run states, in Halted by HALT. -/
theorem cycleOutcomes : Obligations.CycleOutcomes := by
  refine ⟨fun s hrun => ?_, fun s r _ => s.respond_not_waiting r⟩
  by_cases hwait : s.waiting
  case pos => exact ⟨s, step_of_waiting hwait, .inr (.inr (.inr ⟨hwait, rfl⟩))⟩
  obtain ⟨t, h⟩ := step_isNext s
  refine ⟨t, h, ?_⟩
  cases ht : t.run with
  | running => exact .inl ⟨rfl, hwait⟩
  | halted => exact .inr (.inl ⟨rfl, (step_halted_iff hrun h).1 ht⟩)
  | faulted r => exact .inr (.inr (.inl ⟨r, rfl⟩))

/-! ## The canonical form of memory -/

section Canonical
variable {s t : State}

theorem Memory.segmentAt_wf (hs : Memory.wf s) {id : Word} {g : Segment} (h : s.segmentAt id = some g) : g.wf := by
  obtain ⟨ha0, -, hsegments⟩ := hs
  by_cases h0 : id = 0#32
  · rw [h0, State.segmentAt_zero] at h
    exact Option.some.inj h ▸ ha0
  · rw [State.segmentAt_ne h0] at h
    exact SegMgr.segment_wf hsegments h

/-- In canonical form, an id whose segments have one length and read the same names the same data in both states. -/
theorem Memory.segmentAt_ext (hs : Memory.wf s) (ht : Memory.wf t) {id : Word}
    (hlen : (s.segmentAt id).map Segment.len = (t.segmentAt id).map Segment.len)
    (hword : ∀ o, s.wordAt id o = t.wordAt id o) : s.segmentAt id = t.segmentAt id := by
  cases hg : s.segmentAt id with
  | none =>
    rw [hg] at hlen
    exact (Option.map_eq_none_iff.1 hlen.symm).symm
  | some g =>
    rw [hg] at hlen
    obtain ⟨g', hg', hlen'⟩ := Option.map_eq_some_iff.1 hlen.symm
    have hread : ∀ o, g.read o = g'.read o := by simpa [State.wordAt, hg, hg'] using hword
    rw [hg', Segment.ext_read (Memory.segmentAt_wf hs hg) (Memory.segmentAt_wf ht hg') hlen'.symm hread]

/-- The keys of the segment map are the ids of R32, so a number that is none of them is not looked up to a segment. -/
theorem SegMgr.lookup_of_not_id {m : SegMgr} (hids : ∀ e ∈ m.segments, 1 ≤ e.1 ∧ e.1 < 2 ^ 32) {k : Nat}
    (hk : ¬ (1 ≤ k ∧ k < 2 ^ 32)) : Assoc.lookup k m.segments = none :=
  Option.eq_none_iff_forall_ne_some.2 fun _ hg => hk (hids _ (Assoc.mem_of_lookup hg))

/-- Managers in canonical form that map every id other than 0 to the same segment have the same segments as data. -/
theorem SegMgr.segments_ext {m m' : SegMgr} (hm : Assoc.Rising m.segments) (hm' : Assoc.Rising m'.segments)
    (hids : ∀ e ∈ m.segments, 1 ≤ e.1 ∧ e.1 < 2 ^ 32) (hids' : ∀ e ∈ m'.segments, 1 ≤ e.1 ∧ e.1 < 2 ^ 32)
    (h : ∀ id, id ≠ 0#32 → m.segment id = m'.segment id) : m.segments = m'.segments := by
  refine Assoc.ext hm hm' fun k => ?_
  by_cases hk : 1 ≤ k ∧ k < 2 ^ 32
  · have hid : (BitVec.ofNat 32 k).toNat = k := (BitVec.toNat_ofNat ..).trans (Nat.mod_eq_of_lt hk.2)
    have hne : BitVec.ofNat 32 k ≠ 0#32 := fun h0 => by simp [h0] at hid; omega
    simpa only [SegMgr.segment, hid] using h _ hne
  · rw [SegMgr.lookup_of_not_id hids hk, SegMgr.lookup_of_not_id hids' hk]

end Canonical

/-- Settles O55: every id names the same segment as data, id 0 giving A0 and the others the segment map. -/
theorem equalMemoriesAreEqualData : Obligations.EqualMemoriesAreEqualData := by
  intro s t hs ht hlen hword hids hids'
  have hsegment : ∀ id, s.segmentAt id = t.segmentAt id := fun id => Memory.segmentAt_ext hs ht (hlen id) (hword id)
  obtain ⟨-, hrising, -⟩ := hs
  obtain ⟨-, hrising', -⟩ := ht
  constructor
  · simpa only [State.segmentAt_zero, Option.some.injEq] using hsegment 0#32
  · refine SegMgr.segments_ext hrising hrising' hids hids' fun id hne => ?_
    rw [← State.segmentAt_ne hne, hsegment, State.segmentAt_ne hne]

end Sys2Proof.Machine
end
